-- ==== Sys2Proof/Word.lean ====
section
/-! DEFINITION. The widths of AIM-CORE (spec R70, R71, R100): a byte, a 32-bit host word, a 16-bit
host-port address. Field elements are unbounded naturals (R16, R17), so no type here is theirs. -/

namespace Sys2Proof

/-- One byte of storage (R35). -/
abbrev Byte := BitVec 8

/-- A command word or a control register (R40, R100). -/
abbrev Word := BitVec 32

/-- A byte address of the host port (R70). -/
abbrev PortAddr := BitVec 16

/-- The number of an element register, a value of RD, RS1 or RS2 (R102): all 16 are legal. -/
abbrev ElemIx := BitVec 4

/-- The number of a matrix register, a value of MD, MS1 or MS2 (R102): all 4 are legal. -/
abbrev MatIx := BitVec 2

/-- `mask(n) = 2^n - 1` (R16). -/
def mask (n : Nat) : Nat := 2 ^ n - 1

end Sys2Proof
end

