-- ==== Sys2Proof/Syntax.lean ====
section
/-! DEFINITION. The ten commands of AIM-CORE-CMD version 1 (spec R105), one constructor per row of
spec/opcode_table.json, with the fields each row uses (R100, R106). -/

namespace Sys2Proof

/-- A command. `imm8` is the IMM8 field as it stands in the word: FEXPM's k is `imm8 + 1` (R103),
GENLAYER's s is `imm8` (R104). -/
inductive Instr where
  | nop
  | fadd (rd rs1 rs2 : ElemIx)
  | fmul (rd rs1 rs2 : ElemIx)
  | fexp (rd rs1 rs2 : ElemIx)
  | fexpm (rd rs1 : ElemIx) (imm8 : BitVec 8)
  | finv (rd rs1 : ElemIx)
  | vecmat (rd rs1 : ElemIx) (ms1 : MatIx)
  | matmat (md ms1 ms2 : MatIx)
  | genlayer (rd : ElemIx) (imm8 : BitVec 8)
  | eval
deriving DecidableEq, Repr

end Sys2Proof
end

