-- ==== Sys2Proof/WellFormed.lean ====
section
/-! DEFINITION. Which terms of `Instr` are commands. Every register number is legal (spec R102) and
every IMM8 of FEXPM is legal (R103), so the one check is GENLAYER's layer count (R104, R108). -/

namespace Sys2Proof

/-- GENLAYER's s is 1 to 4 (R104, R108). -/
def layerCountOk (imm8 : BitVec 8) : Bool := 1 ≤ imm8.toNat && imm8.toNat ≤ 4

/-- The term is a command of R105. -/
def Instr.wellFormed : Instr → Bool
  | .nop => true
  | .fadd _ _ _ => true
  | .fmul _ _ _ => true
  | .fexp _ _ _ => true
  | .fexpm _ _ _ => true
  | .finv _ _ => true
  | .vecmat _ _ _ => true
  | .matmat _ _ _ => true
  | .genlayer _ imm8 => layerCountOk imm8
  | .eval => true

end Sys2Proof
end

