-- ==== Sys2Proof/Decode.lean ====
section
/-! DEFINITION. The command word: its fields (spec R100, R101), the opcode map (R105), the decoder,
total on all 2^32 words and refusing by name (R106 to R109), the bytes of a word (R72), and the
encoder (R111). -/

namespace Sys2Proof

/-- OP = w[5:0] (R101). -/
def fieldOp (w : Word) : BitVec 6 := w.extractLsb' 0 6
/-- RD = w[9:6] (R101). -/
def fieldRd (w : Word) : ElemIx := w.extractLsb' 6 4
/-- RS1 = w[13:10] (R101). -/
def fieldRs1 (w : Word) : ElemIx := w.extractLsb' 10 4
/-- RS2 = w[17:14] (R101). -/
def fieldRs2 (w : Word) : ElemIx := w.extractLsb' 14 4
/-- MD = w[19:18] (R101). -/
def fieldMd (w : Word) : MatIx := w.extractLsb' 18 2
/-- MS1 = w[21:20] (R101). -/
def fieldMs1 (w : Word) : MatIx := w.extractLsb' 20 2
/-- MS2 = w[23:22] (R101). -/
def fieldMs2 (w : Word) : MatIx := w.extractLsb' 22 2
/-- IMM8 = w[31:24] (R101). -/
def fieldImm8 (w : Word) : BitVec 8 := w.extractLsb' 24 8

/-- One row of the opcode map (R105): a word is this command iff its masked bits are `pattern`. -/
structure OpcodeRow where
  mnemonic : String
  pattern : Word
  mask : Word
deriving DecidableEq, Repr

/-- The opcode map of R105, in its order. -/
def opcodeMap : List OpcodeRow :=
  [⟨"NOP", 0x00000000#32, 0xFFFFFFFF#32⟩,
   ⟨"FADD", 0x00000001#32, 0xFFFC003F#32⟩,
   ⟨"FMUL", 0x00000002#32, 0xFFFC003F#32⟩,
   ⟨"FEXP", 0x00000003#32, 0xFFFC003F#32⟩,
   ⟨"FEXPM", 0x00000004#32, 0x00FFC03F#32⟩,
   ⟨"FINV", 0x00000005#32, 0xFFFFC03F#32⟩,
   ⟨"VECMAT", 0x00000006#32, 0xFFCFC03F#32⟩,
   ⟨"MATMAT", 0x00000007#32, 0xFF03FFFF#32⟩,
   ⟨"GENLAYER", 0x00000008#32, 0x00FFFC3F#32⟩,
   ⟨"EVAL", 0x00000009#32, 0xFFFFFFFF#32⟩]

/-- Why a word is no command; every one of them completes with IllegalCommand (R106 to R109).
`truncated` is about byte strings shorter than a word, which no CMD write delivers (R110). -/
inductive DecodeError where
  | unusedField (op : BitVec 6)
  | reservedOpcode (op : BitVec 6)
  | layerCount (imm8 : BitVec 8)
  | truncated
deriving DecidableEq, Repr

/-- The word is row `op` of the opcode map, GENLAYER's count aside (R105). -/
def matchesRow (op : Nat) (w : Word) : Bool :=
  match opcodeMap[op]? with
  | some row => w &&& row.mask == row.pattern
  | none => false

/-- The command of a word whose unused fields are zero, by its opcode (R105). -/
def commandOf (w : Word) : Except DecodeError Instr :=
  match (fieldOp w).toNat with
  | 0 => .ok .nop
  | 1 => .ok (.fadd (fieldRd w) (fieldRs1 w) (fieldRs2 w))
  | 2 => .ok (.fmul (fieldRd w) (fieldRs1 w) (fieldRs2 w))
  | 3 => .ok (.fexp (fieldRd w) (fieldRs1 w) (fieldRs2 w))
  | 4 => .ok (.fexpm (fieldRd w) (fieldRs1 w) (fieldImm8 w))
  | 5 => .ok (.finv (fieldRd w) (fieldRs1 w))
  | 6 => .ok (.vecmat (fieldRd w) (fieldRs1 w) (fieldMs1 w))
  | 7 => .ok (.matmat (fieldMd w) (fieldMs1 w) (fieldMs2 w))
  | 8 => if layerCountOk (fieldImm8 w) then .ok (.genlayer (fieldRd w) (fieldImm8 w))
         else .error (.layerCount (fieldImm8 w))
  | 9 => .ok .eval
  | _ => .error (.reservedOpcode (fieldOp w))

/-- The decoder, total on all words (R109): a reserved opcode (R107), a nonzero unused field (R106) or a
bad layer count (R108) is refused by name. -/
def decode (w : Word) : Except DecodeError Instr :=
  if 10 ≤ (fieldOp w).toNat then .error (.reservedOpcode (fieldOp w))
  else if matchesRow (fieldOp w).toNat w then commandOf w
  else .error (.unusedField (fieldOp w))

/-- The 32-bit word of four bytes, least significant byte first (R72). -/
def wordOfBytes (b0 b1 b2 b3 : Byte) : Word :=
  b0.setWidth 32 ||| b1.setWidth 32 <<< 8 ||| b2.setWidth 32 <<< 16 ||| b3.setWidth 32 <<< 24

/-- The decoder over a byte string: one command is four bytes (R72, R110); what follows is handed back. -/
def decodeBytes : List Byte → Except DecodeError (Instr × List Byte)
  | b0 :: b1 :: b2 :: b3 :: rest =>
    match decode (wordOfBytes b0 b1 b2 b3) with
    | .ok i => .ok (i, rest)
    | .error e => .error e
  | _ => .error .truncated

/-- All eight fields in their places: OP at bit 0, RD at 6, RS1 at 10, RS2 at 14, MD at 18, MS1 at 20, MS2 at 22,
IMM8 at 24 (R100, R111). -/
def packFields (imm8 : BitVec 8) (ms2 ms1 md : MatIx) (rs2 rs1 rd : ElemIx) (op : BitVec 6) : Word :=
  op.setWidth 32 ||| rd.setWidth 32 <<< 6 ||| rs1.setWidth 32 <<< 10 ||| rs2.setWidth 32 <<< 14 |||
    md.setWidth 32 <<< 18 ||| ms1.setWidth 32 <<< 20 ||| ms2.setWidth 32 <<< 22 ||| imm8.setWidth 32 <<< 24

/-- The word of a command (R105, R111): its fields in place, every unused field zero (R106). -/
def encode : Instr → Word
  | .nop => packFields 0 0 0 0 0 0 0 0
  | .fadd rd rs1 rs2 => packFields 0 0 0 0 rs2 rs1 rd 1
  | .fmul rd rs1 rs2 => packFields 0 0 0 0 rs2 rs1 rd 2
  | .fexp rd rs1 rs2 => packFields 0 0 0 0 rs2 rs1 rd 3
  | .fexpm rd rs1 imm8 => packFields imm8 0 0 0 0 rs1 rd 4
  | .finv rd rs1 => packFields 0 0 0 0 0 rs1 rd 5
  | .vecmat rd rs1 ms1 => packFields 0 0 ms1 0 0 rs1 rd 6
  | .matmat md ms1 ms2 => packFields 0 ms2 ms1 md 0 0 0 7
  | .genlayer rd imm8 => packFields imm8 0 0 0 0 0 rd 8
  | .eval => packFields 0 0 0 0 0 0 0 9

/-- The four bytes of a word as the host port lays them out (R72). -/
def bytesOfWord (w : Word) : List Byte :=
  [w.extractLsb' 0 8, w.extractLsb' 8 8, w.extractLsb' 16 8, w.extractLsb' 24 8]

/-- The instruction the decoder reads from a word whose bits are `w`, bits at or above `nbits` zero. -/
def decodeTableWord (nbits w : Nat) : Option Instr :=
  match decodeBytes (bytesOfWord (BitVec.ofNat 32 (w % 2 ^ nbits))) with
  | .ok (i, _) => some i
  | .error _ => none

end Sys2Proof
end

