-- ==== Sys2Proof/Config.lean ====
section
/-! DEFINITION. What the spec leaves to an implementation (spec R13, R15) and the free values: opaque
constants with no body, so that a statement about them holds whatever they are. -/

namespace Sys2Proof

/-- The three fields that FSEL selects (R9 to R11, R44). SEL = 3 is never stored (R44). -/
inductive FieldSel where
  | gf128
  | gf192
  | gf256
deriving DecidableEq, Repr

/-- The XOF of a 16-byte IV: seed to infinite byte stream, by stream position (R13). Free. -/
opaque Config.xof128 : List Byte → Nat → Byte

/-- The XOF of a 24-byte or 32-byte IV: seed to infinite byte stream, by stream position (R13). Free. -/
opaque Config.xof256 : List Byte → Nat → Byte

/-- How many cycles pass strictly between the issue of a command word and its completion, that is
LATENCY(cmd, operands) - 1 (R15, R251). The spec fixes no relation between latency and operands or d (N16);
DESIGN CHOICE (log 3): the arguments are the word, everything a command can read at its issue (FSEL, IVLEN, PTLEN,
storage), and a fresh count, so that any two issues may differ in latency. Free. -/
opaque Config.cyclesBeforeCompletion :
  Word → FieldSel → (ivlen ptlen : BitVec 6) → (storage : List (Nat × Byte)) → (fresh : Nat) → Nat

/-- A draw: what a host read of storage while BUSY returns (R302), or any read while RST is asserted
(R290). The argument is a fresh count, so two draws are unrelated. Free. -/
opaque Config.draw : Nat → Word

end Sys2Proof
end

