-- ==== Sys2Proof/Machine/State.lean ====
section
/-! DEFINITION. The state of AIM-CORE and its two agents (spec R30, R23), the reasons a step can stop
(R260), and the state right after reset (R52, R290, R291). Plain data only. -/

namespace Sys2Proof.Machine

open Sys2Proof

/-- Storage: E, M, IV_BUF, PT_BUF and CT_BUF as (host-port address, byte) pairs (R74 to R76), addresses
strictly rising. A byte is listed iff it is written (R35, R78); an unlisted byte has no value (R291). -/
abbrev Memory := List Host.Cell

/-- The error codes a command can complete with (R252). -/
inductive ErrorCode where
  | ok
  | invalidInput
  | invalidOperand
  | illegalCommand
  | operandRange
deriving DecidableEq, Repr

/-- STATUS (R42). Its reserved bits read as zero and are not stored. -/
structure Status where
  busy : Bool
  done : Bool
  err : Bool
  hz : Bool
  ecode : BitVec 4
deriving DecidableEq, Repr

/-- IDLE or BUSY, the engine's sequencer state (R30). -/
inductive Engine where
  | idle
  | busy
deriving DecidableEq, Repr

/-- One thing the outside does in one step: a host access (R23, R77, R78), the polling loop `wait` (R113),
a wait for IRQ (R303), a cycle without an access, or an edge of RST (R290). -/
inductive HostOp where
  /-- `MemRead(a, n)` (R77). -/
  | read (a : PortAddr) (n : Nat)
  /-- `MemWrite(a, n, v)`: the low n bytes of v (R78). -/
  | write (a : PortAddr) (n : Nat) (v : Word)
  /-- Read STATUS; go on only when bit 0 of the value is 0 (R113). -/
  | wait
  /-- Go on only when IRQ is 1 (R83, R303). -/
  | waitIrq
  /-- No access in this cycle (R300). -/
  | idle
  /-- RST is asserted (R290). -/
  | assertReset
  /-- RST is deasserted (R290). -/
  | releaseReset
deriving DecidableEq, Repr

/-- The state. `mem` to `errcmd` are the architectural state of R30, `rst` the reset input (R290),
`remaining` the hidden remaining latency (R51), `host` and `reads` the host agent: the accesses it still
makes and the values its reads returned, oldest first (R23, R306). `fresh` is the model's own: the
count the free values of Config are applied to. -/
structure State where
  mem : Memory
  cmd : Word
  status : Status
  ie : Bool
  fsel : FieldSel
  ivlen : BitVec 6
  ptlen : BitVec 6
  errcmd : Word
  rst : Bool
  remaining : Nat
  host : List HostOp
  reads : List Word
  fresh : Nat
deriving DecidableEq, Repr

/-- Why the machine stops: the model faults of R260, which mark a value the spec leaves unspecified and are
never a final state of a run. -/
inductive Fault where
  /-- Raised by a command or, while IDLE, by a host read, on reading a storage byte that nothing has written
  since reset. The spec demands this fault by name: R35 ("a model gives it no value"), R291, R254, R260, and U7 of
  93_implementation_defined.md, whose treatment is `fault` and not `any value`; the outcome of such a run is the
  fault (U18, R306). Safe: the hardware goes on with some value, the model claims nothing. -/
  | unwrittenRead
  /-- Raised by a host access that is misaligned, of a size other than 1, 2 or 4, or narrower than 32 bits in
  the control region (R71). Safe: the hardware's effect is unspecified, the model claims nothing. -/
  | hostAccess
deriving DecidableEq, Repr

/-- Why an instruction has no meaning. -/
inductive Refusal where
  /-- Raised by the dispatcher for an instruction without a meaning. Safe: the model stops. No arm
  answers it: all ten commands have their meaning. -/
  | notModelled (mnemonic : String)
deriving DecidableEq, Repr

/-- STATUS after reset (R42, R52). -/
def Status.reset : Status :=
  { busy := false, done := false, err := false, hz := false, ecode := 0 }

/-- The machine right after RST deassertion: control registers as R52 says, storage unwritten (R291), no
command in flight, nothing pending at the host (R292). -/
def State.reset : State :=
  { mem := []
    cmd := 0
    status := Status.reset
    ie := false
    fsel := .gf128
    ivlen := 0
    ptlen := 0
    errcmd := 0
    rst := false
    remaining := 0
    host := []
    reads := []
    fresh := 0 }

end Sys2Proof.Machine
end

