-- ==== Sys2Proof/Machine/Flags.lean ====
section
/-! DEFINITION. STATUS: its word as the host reads it, and the four things that change it (spec R42, R49,
R250, R254, R301); the views IRQ (R50) and sequencer state (R30). -/

namespace Sys2Proof.Machine

open Sys2Proof

/-- The code of R252 in STATUS.ECODE. -/
def ErrorCode.bits : ErrorCode → BitVec 4
  | .ok => 0
  | .invalidInput => 1
  | .invalidOperand => 2
  | .illegalCommand => 3
  | .operandRange => 4

/-- STATUS as a 32-bit word: BUSY 0, DONE 1, ERR 2, HZ 3, ECODE 7:4, the rest zero (R42). -/
def Status.word (t : Status) : Word :=
  (BitVec.ofBool t.busy).setWidth 32 ||| (BitVec.ofBool t.done).setWidth 32 <<< 1 |||
    (BitVec.ofBool t.err).setWidth 32 <<< 2 ||| (BitVec.ofBool t.hz).setWidth 32 <<< 3 |||
    t.ecode.setWidth 32 <<< 4

/-- Issue: BUSY set, DONE cleared, the rest unchanged (R250). -/
def Status.afterIssue (t : Status) : Status := { t with busy := true, done := false }

/-- Completion: BUSY cleared, DONE set, ECODE the code, ERR set on an error and kept otherwise (R254). -/
def Status.afterCompletion (t : Status) (c : ErrorCode) : Status :=
  { t with busy := false, done := true, err := t.err || c != .ok, ecode := c.bits }

/-- A host write of `v`: DONE, ERR and HZ are cleared where `v` has a 1; the rest ignores it (R42). -/
def Status.clearOnes (t : Status) (v : Word) : Status :=
  { t with done := t.done && !v.getLsbD 1, err := t.err && !v.getLsbD 2, hz := t.hz && !v.getLsbD 3 }

/-- A write hazard: HZ is set (R301). -/
def Status.withHazard (t : Status) : Status := { t with hz := true }

/-- `IRQ = CTRL.IE & STATUS.DONE` (R50, R258). -/
def State.irq (s : State) : Bool := s.ie && s.status.done

/-- IDLE when BUSY = 0 and BUSY otherwise (R30). -/
def State.engine (s : State) : Engine := if s.status.busy then .busy else .idle

end Sys2Proof.Machine
end

