-- ==== Sys2Proof/Machine/Ops.lean ====
section
/-! DEFINITION. The named operations: serialisation (spec R21), storage by byte and by range (R35, R78),
the storage map (R74 to R76), issue (R250), and completion, normal or with an error code (R254, R255). -/

namespace Sys2Proof.Machine

open Sys2Proof

/-- The byte string of length `n` whose byte k is bits 8k+7..8k of `x` (R21). -/
def toBytes : Nat → Nat → List Byte
  | 0, _ => []
  | n + 1, x => BitVec.ofNat 8 x :: toBytes n (x >>> 8)

/-- The sum of b[k]·2^(8k), for a byte string of any length (R21). -/
def fromBytes : List Byte → Nat
  | [] => 0
  | b :: bs => b.toNat + 2 ^ 8 * fromBytes bs

/-- The byte at an address, none where nothing has written it (R35). -/
def Memory.byteAt : Memory → Nat → Option Byte
  | [], _ => none
  | (x, b) :: m, a => if x = a then some b else Memory.byteAt m a

/-- The cells of the `n` addresses from `a` on. -/
def Memory.slice (m : Memory) (a n : Nat) : Memory := m.filter fun c => a ≤ c.1 && c.1 < a + n

/-- The bytes at `a`, `a + 1`, …, none if one of them is unwritten. -/
def Memory.collect (m : Memory) : Nat → Nat → Option (List Byte)
  | _, 0 => some []
  | a, n + 1 =>
    match m.byteAt a, Memory.collect m (a + 1) n with
    | some b, some bs => some (b :: bs)
    | _, _ => none

/-- The `n` bytes from `a` on, none if one of them is unwritten (R35). -/
def Memory.readBytes (m : Memory) (a n : Nat) : Option (List Byte) := (m.slice a n).collect a n

/-- The byte string as cells from `a` on. -/
def cellsFrom : Nat → List Byte → Memory
  | _, [] => []
  | a, b :: bs => (a, b) :: cellsFrom (a + 1) bs

/-- Store a byte string at `a`; every byte of it is written from then on (R35, R78). -/
def Memory.write (m : Memory) (a : Nat) (bs : List Byte) : Memory :=
  (m.filter fun c => c.1 < a) ++ cellsFrom a bs ++ m.filter fun c => a + bs.length ≤ c.1

/-- Addresses strictly rise. -/
def Memory.rising : Memory → Bool
  | [] => true
  | [_] => true
  | c :: c' :: m => c.1 < c'.1 && Memory.rising (c' :: m)

/-- IV_BUF[0] (R74). -/
def ivBase : Nat := 0x0100
/-- PT_BUF[0] (R74). -/
def ptBase : Nat := 0x0120
/-- CT_BUF[0] (R74). -/
def ctBase : Nat := 0x0140
/-- Byte 0 of E[r] (R75). -/
def elemBase (r : Nat) : Nat := 0x0200 + 32 * r
/-- Byte 0 of M[m][j] (R76). -/
def entryBase (m j : Nat) : Nat := 0x8000 + 0x2000 * m + 32 * j

/-- The address is a byte of a buffer, of E or of M (R73). -/
def isStorage (a : Nat) : Bool :=
  (0x0100 ≤ a && a < 0x0160) || (0x0200 ≤ a && a < 0x0400) || (0x8000 ≤ a && a < 0x10000)

/-- The canonical form of storage: addresses strictly rise and every one is a storage byte of R73. An unlisted
byte has no value, so no entry can equal one. -/
def Memory.wf (m : Memory) : Bool := m.rising && m.all fun c => isStorage c.1

/-- The issue of word `w` (R250), with `cycles` cycles before its completion (R251, R51). -/
def State.issue (s : State) (w : Word) (cycles : Nat) : State :=
  { s with cmd := w, status := s.status.afterIssue, remaining := cycles }

/-- Completion with a code (R254): the one operation by which a command ends, normally or with an error.
STATUS reports it and an error saves the command word in ERRCMD (R47, R255). -/
def State.complete (s : State) (c : ErrorCode) : State :=
  { s with
    status := s.status.afterCompletion c
    errcmd := if c = .ok then s.errcmd else s.cmd
    remaining := 0 }

/-- How the body of a command can stop: `raise c` (R20) or a model fault (R260). -/
inductive Stop where
  | raise (c : ErrorCode)
  | fault (f : Fault)
deriving DecidableEq, Repr

/-- The completion step around a body (R254): its new storage with code OK; or, where it raised, the old
storage with the code (R20, R255); or its model fault. -/
def State.finish (s : State) (body : Except Stop Memory) : Host.Outcome State Fault Refusal :=
  match body with
  | .ok m => .next (State.complete { s with mem := m } .ok)
  | .error (.raise c) => .next (s.complete c)
  | .error (.fault f) => .fault f

end Sys2Proof.Machine
end

