-- ==== Sys2Proof/Machine/Operands.lean ====
section
/-! DEFINITION. The fields' constants (spec R9 to R11, R44) and every operand form: element registers,
matrix registers, the IV and PT buffers (R32 to R39), with the checks R33 and R37. -/

namespace Sys2Proof

/-- d (R9 to R11). -/
def FieldSel.degree : FieldSel → Nat
  | .gf128 => 128
  | .gf192 => 192
  | .gf256 => 256

/-- d/8, the length in bytes of an element (R21). -/
def FieldSel.bytes : FieldSel → Nat
  | .gf128 => 16
  | .gf192 => 24
  | .gf256 => 32

/-- The irreducible polynomial, degree-d term included (R9 to R11). -/
def FieldSel.poly : FieldSel → Nat
  | .gf128 => 2 ^ 128 + 0x87
  | .gf192 => 2 ^ 192 + 0x87
  | .gf256 => 2 ^ 256 + 0x425

end Sys2Proof

namespace Sys2Proof.Machine

open Sys2Proof

/-- E[r], none if a byte of it is unwritten (R35, R75). -/
def Memory.elem (m : Memory) (r : ElemIx) : Option Nat :=
  (m.readBytes (elemBase r.toNat) 32).map fromBytes

/-- `n` entries of 32 bytes from address `a` on, none if a byte of them is unwritten. -/
def Memory.entries (m : Memory) : Nat → Nat → Option (List Nat)
  | _, 0 => some []
  | a, n + 1 =>
    match m.readBytes a 32, Memory.entries m (a + 32) n with
    | some bs, some xs => some (fromBytes bs :: xs)
    | _, _ => none

/-- M[k][0..d-1] as d values, none if a byte of them is unwritten (R35, R36, R76). -/
def Memory.matrix (m : Memory) (k : Nat) (d : Nat) : Option (List Nat) :=
  (m.slice (entryBase k 0) (32 * d)).entries (entryBase k 0) d

/-- `E[r] <- zext_256(x)`: all 32 bytes (R34, R35). -/
def Memory.setElem (m : Memory) (r : ElemIx) (x : Nat) : Memory :=
  m.write (elemBase r.toNat) (toBytes 32 x)

/-- `M[k][j] <- zext_256(c[j])` for each entry of `c`; the entries above are unchanged (R38). -/
def Memory.setMatrix (m : Memory) (k : Nat) (c : List Nat) : Memory :=
  m.write (entryBase k 0) (c.flatMap (toBytes 32))

/-- A value read, or, where a byte of it is unwritten, `model fault UnwrittenRead`, as the spec says of a body that
reads a storage location never written since reset (R254, R35, R260). -/
def fetched {α : Type} : Option α → Except Stop α
  | some a => .ok a
  | none => .error (.fault .unwrittenRead)

/-- The operand E[r] (R32). -/
def State.fetchElem (s : State) (r : ElemIx) : Except Stop Nat := fetched (s.mem.elem r)

/-- The operand M[k][0..d-1], d from FSEL (R36). -/
def State.fetchMatrix (s : State) (k : MatIx) : Except Stop (List Nat) :=
  fetched (s.mem.matrix k.toNat s.fsel.degree)

/-- The first `n` bytes of a buffer (R39). -/
def State.fetchBuffer (s : State) (base n : Nat) : Except Stop (List Byte) :=
  fetched (s.mem.readBytes base n)

/-- A field operand is valid for d iff it is below 2^d (R33). -/
def validOperand (f : FieldSel) (x : Nat) : Bool := x < 2 ^ f.degree

/-- A matrix operand is valid iff every one of its d entries is (R37). -/
def validMatrix (f : FieldSel) (a : List Nat) : Bool := a.all (validOperand f)

/-- `raise c` unless the condition holds (R20). -/
def require (ok : Bool) (c : ErrorCode) : Except Stop Unit :=
  if ok then .ok () else .error (.raise c)

end Sys2Proof.Machine
end

