-- ==== Sys2Proof/Machine/FieldArith.lean ====
section
/-! DEFINITION. The field functions (spec R139, R142, R144, R148) on unbounded integers (R16, R151) and the
commands NOP, FADD, FMUL, FEXP, FEXPM, FINV (spec/40_field.md). -/

namespace Sys2Proof.Machine

open Sys2Proof

/-- `gf_add_d(x, y)` (R139). -/
def gfAdd (x y : Nat) : Nat := x ^^^ y

/-- The loop of R142 with at most `n` turns: `r` the sum, `a` the shifted x, `b` the rest of y. -/
def gfMulLoop (f : FieldSel) : Nat → Nat → Nat → Nat → Nat
  | 0, r, _, _ => r
  | n + 1, r, a, b =>
    if b = 0 then r else
    let r' := if b.testBit 0 then r ^^^ a else r
    let a' := a <<< 1
    let a'' := if a'.testBit f.degree then a' ^^^ f.poly else a'
    gfMulLoop f n r' a'' (b >>> 1)

/-- `gf_mul_d(x, y)` for x, y < 2^d (R142); such a y is used up after d turns. -/
def gfMul (f : FieldSel) (x y : Nat) : Nat := gfMulLoop f f.degree 0 x y

/-- `bitlen(e)`: the least n with e < 2^n (R144). -/
def bitLen (e : Nat) : Nat := if e = 0 then 0 else e.log2 + 1

/-- The loop of R144 over bits i-1 down to 0 of `e`. -/
def gfExpLoop (f : FieldSel) (x e : Nat) : Nat → Nat → Nat
  | 0, r => r
  | i + 1, r =>
    let r' := gfMul f r r
    gfExpLoop f x e i (if e.testBit i then gfMul f r' x else r')

/-- `gf_exp_d(x, e)` for x < 2^d and e ≥ 1 (R144). No command asks for e = 0 (R145). -/
def gfExp (f : FieldSel) (x e : Nat) : Nat := gfExpLoop f x e (bitLen e) 1

/-- `gf_inv_d(x)` for 0 < x < 2^d (R148). No command asks for x = 0 (R149). -/
def gfInv (f : FieldSel) (x : Nat) : Nat := gfExp f x (2 ^ f.degree - 2)

/-- The exponent of a power map, 2^k - 1 (R103, R22). -/
def powerMapExponent (k : Nat) : Nat := 2 ^ k - 1

/-- NOP does nothing (R140). -/
def nopBody (s : State) : Except Stop Memory := .ok s.mem

/-- FADD (R141). -/
def faddBody (s : State) (rd rs1 rs2 : ElemIx) : Except Stop Memory := do
  let a ← s.fetchElem rs1
  let b ← s.fetchElem rs2
  require (validOperand s.fsel a && validOperand s.fsel b) .operandRange
  pure (s.mem.setElem rd (gfAdd a b))

/-- FMUL (R143). -/
def fmulBody (s : State) (rd rs1 rs2 : ElemIx) : Except Stop Memory := do
  let a ← s.fetchElem rs1
  let b ← s.fetchElem rs2
  require (validOperand s.fsel a && validOperand s.fsel b) .operandRange
  pure (s.mem.setElem rd (gfMul s.fsel a b))

/-- FEXP: the exponent is a 256-bit integer and not range-checked; 0 raises InvalidOperand (R145). -/
def fexpBody (s : State) (rd rs1 rs2 : ElemIx) : Except Stop Memory := do
  let x ← s.fetchElem rs1
  let e ← s.fetchElem rs2
  require (validOperand s.fsel x) .operandRange
  require (e != 0) .invalidOperand
  pure (s.mem.setElem rd (gfExp s.fsel x e))

/-- FEXPM: k = IMM8 + 1, the exponent 2^k - 1 (R147, R103). -/
def fexpmBody (s : State) (rd rs1 : ElemIx) (imm8 : BitVec 8) : Except Stop Memory := do
  let x ← s.fetchElem rs1
  require (validOperand s.fsel x) .operandRange
  pure (s.mem.setElem rd (gfExp s.fsel x (powerMapExponent (imm8.toNat + 1))))

/-- FINV: the inverse of 0 raises InvalidOperand (R149). -/
def finvBody (s : State) (rd rs1 : ElemIx) : Except Stop Memory := do
  let x ← s.fetchElem rs1
  require (validOperand s.fsel x) .operandRange
  require (x != 0) .invalidOperand
  pure (s.mem.setElem rd (gfInv s.fsel x))

/-- NOP (R140, R254). -/
def execNop (s : State) : Host.Outcome State Fault Refusal := s.finish (nopBody s)

/-- FADD (R141, R254). -/
def execFadd (rd rs1 rs2 : ElemIx) (s : State) : Host.Outcome State Fault Refusal :=
  s.finish (faddBody s rd rs1 rs2)

/-- FMUL (R143, R254). -/
def execFmul (rd rs1 rs2 : ElemIx) (s : State) : Host.Outcome State Fault Refusal :=
  s.finish (fmulBody s rd rs1 rs2)

/-- FEXP (R145, R254). -/
def execFexp (rd rs1 rs2 : ElemIx) (s : State) : Host.Outcome State Fault Refusal :=
  s.finish (fexpBody s rd rs1 rs2)

/-- FEXPM (R147, R254). -/
def execFexpm (rd rs1 : ElemIx) (imm8 : BitVec 8) (s : State) : Host.Outcome State Fault Refusal :=
  s.finish (fexpmBody s rd rs1 imm8)

/-- FINV (R149, R254). -/
def execFinv (rd rs1 : ElemIx) (s : State) : Host.Outcome State Fault Refusal :=
  s.finish (finvBody s rd rs1)

end Sys2Proof.Machine
end

