-- ==== Sys2Proof/Machine/Matrix.lean ====
section
/-! DEFINITION. The GF(2) products by their operational rules (spec R180, R181, R183) and the commands
VECMAT and MATMAT (spec/41_matrix.md). -/

namespace Sys2Proof.Machine

open Sys2Proof

/-- The sum of R181 over the entries from index `i` on: `r` xor every A[i] whose bit of `v` is set. -/
def vecMatFrom (v : Nat) : Nat → Nat → List Nat → Nat
  | _, r, [] => r
  | i, r, a :: as => vecMatFrom v (i + 1) (if v.testBit i then r ^^^ a else r) as

/-- `vec_mat_d(v, A)`, A a list of d entries (R181). -/
def vecMat (v : Nat) (a : List Nat) : Nat := vecMatFrom v 0 0 a

/-- `mat_mat_d(A, B)`: entry j is vec_mat(A[j], B) (R183). -/
def matMat (a b : List Nat) : List Nat := a.map fun row => vecMat row b

/-- VECMAT (R182). -/
def vecmatBody (s : State) (rd rs1 : ElemIx) (ms1 : MatIx) : Except Stop Memory := do
  let v ← s.fetchElem rs1
  let a ← s.fetchMatrix ms1
  require (validOperand s.fsel v) .operandRange
  require (validMatrix s.fsel a) .operandRange
  pure (s.mem.setElem rd (vecMat v a))

/-- MATMAT, from the old A and B (R184). -/
def matmatBody (s : State) (md ms1 ms2 : MatIx) : Except Stop Memory := do
  let a ← s.fetchMatrix ms1
  let b ← s.fetchMatrix ms2
  require (validMatrix s.fsel a) .operandRange
  require (validMatrix s.fsel b) .operandRange
  pure (s.mem.setMatrix md.toNat (matMat a b))

/-- VECMAT (R182, R254). -/
def execVecmat (rd rs1 : ElemIx) (ms1 : MatIx) (s : State) : Host.Outcome State Fault Refusal :=
  s.finish (vecmatBody s rd rs1 ms1)

/-- MATMAT (R184, R254). -/
def execMatmat (md ms1 ms2 : MatIx) (s : State) : Host.Outcome State Fault Refusal :=
  s.finish (matmatBody s md ms1 ms2)

end Sys2Proof.Machine
end

