-- ==== Sys2Proof/Machine/Layer.lean ====
section
/-! DEFINITION. The XOF stream (spec R202, R203), the factor rows (R204, R205, with the floor lengths of
90_conflicts.md C1), the layer function (R206, R207) and the command GENLAYER (R201). -/

namespace Sys2Proof.Machine

open Sys2Proof

/-- The stream of an IV: the XOF is selected by the IV's length, the seed is the IV's bytes (R202). -/
def xofStream (iv : List Byte) : Nat → Byte :=
  if 8 * iv.length = 128 then Config.xof128 iv else Config.xof256 iv

/-- `read(n)` at stream position `pos`; the position after it is `pos + n` (R203). -/
def readStream (xof : Nat → Byte) (pos n : Nat) : List Byte := (List.range n).map fun k => xof (pos + k)

/-- `~a` at width `d` (R16). -/
def complementAt (d a : Nat) : Nat := (a &&& mask d) ^^^ mask d

/-- nL(i) (R204). -/
def lowerLength (d i : Nat) : Nat := (d - i + 6) / 8

/-- nU(i) (R205). -/
def upperLength (i : Nat) : Nat := (i + 7) / 8

/-- `lower_row_d(i)` from the stream at `pos` (R204). -/
def lowerRow (f : FieldSel) (xof : Nat → Byte) (pos i : Nat) : Nat :=
  let n := lowerLength f.degree i
  let x := fromBytes (readStream xof pos n) <<< (8 * (f.bytes - n))
  (x &&& complementAt f.degree (mask i) &&& mask f.degree) ||| 2 ^ i

/-- `upper_row_d(i)` from the stream at `pos` (R205). -/
def upperRow (xof : Nat → Byte) (pos i : Nat) : Nat :=
  let x := fromBytes (readStream xof pos (upperLength i))
  (x &&& mask i) ||| 2 ^ i

/-- `count` lower rows from row `i` on, the stream at `pos`; with the position after them (R206). -/
def lowerRows (f : FieldSel) (xof : Nat → Byte) : (count i pos : Nat) → List Nat × Nat
  | 0, _, pos => ([], pos)
  | count + 1, i, pos =>
    let rest := lowerRows f xof count (i + 1) (pos + lowerLength f.degree i)
    (lowerRow f xof pos i :: rest.1, rest.2)

/-- `count` upper rows from row `i` on, the stream at `pos`; with the position after them (R206). -/
def upperRows (xof : Nat → Byte) : (count i pos : Nat) → List Nat × Nat
  | 0, _, pos => ([], pos)
  | count + 1, i, pos =>
    let rest := upperRows xof count (i + 1) (pos + upperLength i)
    (upperRow xof pos i :: rest.1, rest.2)

/-- One layer's matrix, all lower rows read first, U the first factor; with the position after it (R206). -/
def oneLayer (f : FieldSel) (xof : Nat → Byte) (pos : Nat) : List Nat × Nat :=
  let lower := lowerRows f xof f.degree 0 pos
  let upper := upperRows xof f.degree 0 lower.2
  (matMat upper.1 lower.1, upper.2)

/-- `s` layers from stream position `pos` on, layer 0 first; with the position after them (R206). -/
def layersFrom (f : FieldSel) (xof : Nat → Byte) : (s pos : Nat) → List (List Nat) × Nat
  | 0, pos => ([], pos)
  | s + 1, pos =>
    let layer := oneLayer f xof pos
    let rest := layersFrom f xof s layer.2
    (layer.1 :: rest.1, rest.2)

/-- `generate_layer_d` over a stream: the s matrices, then the constant b read after all of them (R206, R207). -/
def generateLayer (f : FieldSel) (xof : Nat → Byte) (s : Nat) : List (List Nat) × Nat :=
  let layers := layersFrom f xof s 0
  (layers.1, fromBytes (readStream xof layers.2 f.bytes))

/-- `M[k][j] <- mats[k][j]` for the matrices from M[k] on (R201, R38). -/
def Memory.setMatrices (m : Memory) : Nat → List (List Nat) → Memory
  | _, [] => m
  | k, c :: cs => Memory.setMatrices (m.setMatrix k c) (k + 1) cs

/-- GENLAYER: IVLEN is checked before IV_BUF is read; M[0..s-1] and E[RD] are written (R201). -/
def genlayerBody (s : State) (rd : ElemIx) (imm8 : BitVec 8) : Except Stop Memory := do
  require (s.ivlen.toNat == s.fsel.bytes) .invalidInput
  let iv ← s.fetchBuffer ivBase s.fsel.bytes
  let out := generateLayer s.fsel (xofStream iv) imm8.toNat
  pure ((s.mem.setMatrices 0 out.1).setElem rd out.2)

/-- GENLAYER (R201, R254). -/
def execGenlayer (rd : ElemIx) (imm8 : BitVec 8) (s : State) : Host.Outcome State Fault Refusal :=
  s.finish (genlayerBody s rd imm8)

end Sys2Proof.Machine
end

