-- ==== Sys2Proof/Machine/Owf.lean ====
section
/-! DEFINITION. The variant table (spec R12), the one-way function (R231) and the command EVAL (R230). -/

namespace Sys2Proof.Machine

open Sys2Proof

/-- The variant of preimage length `n` in bytes (R12). -/
def variantOfLength (n : Nat) : Option FieldSel :=
  if n = 16 then some .gf128 else if n = 24 then some .gf192 else if n = 32 then some .gf256 else none

/-- The e_i of the nonlinear exponents 2^{e_i} - 1, in order; their number is the layer count s (R12). -/
def layerExponents : FieldSel → List Nat
  | .gf128 => [3, 27]
  | .gf192 => [5, 29]
  | .gf256 => [3, 53, 7]

/-- The f of the final exponent 2^f - 1 (R12). -/
def finalExponent : FieldSel → Nat
  | .gf128 => 5
  | .gf192 => 7
  | .gf256 => 5

/-- Step 4 of R231: acc xor every vec_mat(t[i], mats[i]). -/
def accumulate : Nat → List Nat → List (List Nat) → Nat
  | acc, t :: ts, a :: as => accumulate (acc ^^^ vecMat t a) ts as
  | acc, _, _ => acc

/-- `aim_eval(pt, iv)` (R231) of a variant, over the stream of the IV. -/
def aimEval (f : FieldSel) (xof : Nat → Byte) (pt : List Byte) : List Byte :=
  let x := fromBytes pt
  let t := (layerExponents f).map fun e => gfExp f x (powerMapExponent e)
  let layer := generateLayer f xof (layerExponents f).length
  let acc := accumulate layer.2 t layer.1
  let u := gfExp f acc (powerMapExponent (finalExponent f)) ^^^ x
  toBytes f.bytes u

/-- EVAL: PTLEN, then IVLEN, then the buffers; CT_BUF is filled up with zeros; FSEL is not used (R230). -/
def evalBody (s : State) : Except Stop Memory :=
  match variantOfLength s.ptlen.toNat with
  | none => .error (.raise .invalidInput)
  | some f => do
    require (s.ivlen.toNat == s.ptlen.toNat) .invalidInput
    let pt ← s.fetchBuffer ptBase s.ptlen.toNat
    let iv ← s.fetchBuffer ivBase s.ptlen.toNat
    let ct := aimEval f (xofStream iv) pt
    pure (s.mem.write ctBase (ct ++ List.replicate (32 - s.ptlen.toNat) 0))

/-- EVAL (R230, R254). -/
def execEval (s : State) : Host.Outcome State Fault Refusal := s.finish (evalBody s)

end Sys2Proof.Machine
end

