-- ==== Sys2Proof/Machine/Dispatch.lean ====
section
/-! DEFINITION. Which meaning each command has (spec R105): the completion step of a decoded command. -/

namespace Sys2Proof.Machine

open Sys2Proof

def exec (i : Instr) (s : State) : Host.Outcome State Fault Refusal :=
  match i with
  | .nop => Sys2Proof.Machine.execNop s
  | .fadd rd rs1 rs2 => Sys2Proof.Machine.execFadd rd rs1 rs2 s
  | .fmul rd rs1 rs2 => Sys2Proof.Machine.execFmul rd rs1 rs2 s
  | .fexp rd rs1 rs2 => Sys2Proof.Machine.execFexp rd rs1 rs2 s
  | .fexpm rd rs1 imm8 => Sys2Proof.Machine.execFexpm rd rs1 imm8 s
  | .finv rd rs1 => Sys2Proof.Machine.execFinv rd rs1 s
  | .vecmat rd rs1 ms1 => Sys2Proof.Machine.execVecmat rd rs1 ms1 s
  | .matmat md ms1 ms2 => Sys2Proof.Machine.execMatmat md ms1 ms2 s
  | .genlayer rd imm8 => Sys2Proof.Machine.execGenlayer rd imm8 s
  | .eval => Sys2Proof.Machine.execEval s

end Sys2Proof.Machine
end

