-- ==== Sys2Proof/Machine/HostPort.lean ====
section
/-! DEFINITION. The host port (spec/20_memory.md): which accesses are within the contract (R71), the address
map (R73), MemRead and MemWrite (R77, R78) with the control registers (R40 to R48) and the hazards (R301,
R302), RST (R290), and one step of the host agent (R23, R80). -/

namespace Sys2Proof.Machine

open Sys2Proof

/-- A size of 1, 2 or 4, aligned, and 4 bytes in the control region (R71). -/
def accessOk (a n : Nat) : Bool :=
  (n == 1 || n == 2 || n == 4) && a % n == 0 && (0x0100 ≤ a || n == 4)

/-- What an address of the map is (R73). -/
inductive Region where
  | control
  | inputBuffer
  | ctBuffer
  | reserved
  | elements
  | matrices
deriving DecidableEq, Repr

/-- The address map (R73); `inputBuffer` is IV_BUF and PT_BUF. -/
def regionOf (a : Nat) : Region :=
  if a < 0x0100 then .control
  else if a < 0x0140 then .inputBuffer
  else if a < 0x0160 then .ctBuffer
  else if a < 0x0200 then .reserved
  else if a < 0x0400 then .elements
  else if a < 0x8000 then .reserved
  else .matrices

/-- FSEL.SEL of a field (R44). -/
def selOf : FieldSel → Word
  | .gf128 => 0
  | .gf192 => 1
  | .gf256 => 2

/-- The field a write of SEL selects; SEL = 3 leaves FSEL as it is (R44). -/
def fieldOfSel (old : FieldSel) (sel : BitVec 2) : FieldSel :=
  if sel = 0 then .gf128 else if sel = 1 then .gf192 else if sel = 2 then .gf256 else old

/-- A read of the control region, whatever BUSY is (R40 to R48, R302). -/
def State.readControl (s : State) (a : Nat) : Word :=
  if a = 0x00 then s.cmd
  else if a = 0x04 then s.status.word
  else if a = 0x08 then (BitVec.ofBool s.ie).setWidth 32
  else if a = 0x0C then selOf s.fsel
  else if a = 0x10 then s.ivlen.setWidth 32
  else if a = 0x14 then s.ptlen.setWidth 32
  else if a = 0x18 then s.errcmd
  else 0

/-- A discarded write sets HZ (R301). -/
def State.hazard (s : State) : State := { s with status := s.status.withHazard }

/-- The issue of `w`, its latency a free value (R250, R251). -/
def State.issueFresh (s : State) (w : Word) : State :=
  State.issue { s with fresh := s.fresh + 1 } w
    (Config.cyclesBeforeCompletion w s.fsel s.ivlen s.ptlen s.mem s.fresh)

/-- A write of the control region (R41 to R48); CMD, FSEL, IVLEN and PTLEN are hazards while BUSY (R301). -/
def State.writeControl (s : State) (a : Nat) (v : Word) : State :=
  if a = 0x00 then if s.status.busy then s.hazard else s.issueFresh v
  else if a = 0x04 then { s with status := s.status.clearOnes v }
  else if a = 0x08 then { s with ie := v.getLsbD 0 }
  else if a = 0x0C then
    if s.status.busy then s.hazard else { s with fsel := fieldOfSel s.fsel (v.setWidth 2) }
  else if a = 0x10 then if s.status.busy then s.hazard else { s with ivlen := v.setWidth 6 }
  else if a = 0x14 then if s.status.busy then s.hazard else { s with ptlen := v.setWidth 6 }
  else s

/-- The value of an n-byte draw (R302). -/
def State.drawn (s : State) (n : Nat) : Word :=
  BitVec.ofNat 32 ((Config.draw s.fresh).toNat % 2 ^ (8 * n))

/-- A draw spends one fresh count (R81, R302). -/
def State.afterDraw (s : State) : State := { s with fresh := s.fresh + 1 }

/-- `MemRead(a, n)` (R77): the value read, and the state, which differs only in the fresh count of a draw. While
RST is asserted every read is a draw (R290). A read, while BUSY = 0, that covers an
unwritten byte is `model fault UnwrittenRead` (R35, R291, R260). -/
def State.memRead (s : State) (a : PortAddr) (n : Nat) : Except Fault (Word × State) :=
  if !accessOk a.toNat n then .error .hostAccess
  else if s.rst then .ok (s.drawn n, s.afterDraw)
  else match regionOf a.toNat with
    | .control => .ok (s.readControl a.toNat, s)
    | .reserved => .ok (0, s)
    | _ =>
      if s.status.busy then .ok (s.drawn n, s.afterDraw)
      else match s.mem.readBytes a.toNat n with
        | some bs => .ok (BitVec.ofNat 32 (fromBytes bs), s)
        | none => .error .unwrittenRead

/-- `MemWrite(a, n, v)` (R78). While RST is asserted every write is discarded (R290). -/
def State.memWrite (s : State) (a : PortAddr) (n : Nat) (v : Word) : Except Fault State :=
  if !accessOk a.toNat n then .error .hostAccess
  else if s.rst then .ok s
  else match regionOf a.toNat with
    | .control => .ok (s.writeControl a.toNat v)
    | .reserved => .ok s
    | .ctBuffer => .ok s
    | _ =>
      if s.status.busy then .ok s.hazard
      else .ok { s with mem := s.mem.write a.toNat (toBytes n v.toNat) }

/-- RST is asserted: the engine stops, nothing else changes yet (R290). -/
def State.assertRst (s : State) : State := { s with rst := true }

/-- RST is deasserted: control registers at their reset values, engine IDLE, the command in progress abandoned,
storage unwritten (R290, R291, R52). Without RST asserted there is no such edge. -/
def State.releaseRst (s : State) : State :=
  if s.rst then { State.reset with host := s.host, reads := s.reads, fresh := s.fresh } else s

/-- The host notes a value read (R306). -/
def State.noted (s : State) (v : Word) : State := { s with reads := s.reads ++ [v] }

/-- One step of the host with `op` at the head of its pending accesses and `rest` behind (R80): the host list
of the answer is `rest`, or `op :: rest` where it waits on. -/
def State.perform (s : State) (op : HostOp) (rest : List HostOp) : Except Fault State :=
  match op with
  | .read a n =>
    match s.memRead a n with
    | .ok (v, s') => .ok { s'.noted v with host := rest }
    | .error f => .error f
  | .write a n v =>
    match s.memWrite a n v with
    | .ok s' => .ok { s' with host := rest }
    | .error f => .error f
  | .wait =>
    match s.memRead 0x0004 4 with
    | .ok (v, s') => .ok { s'.noted v with host := if v.getLsbD 0 then .wait :: rest else rest }
    | .error f => .error f
  | .waitIrq => .ok { s with host := if s.irq then rest else .waitIrq :: rest }
  | .idle => .ok { s with host := rest }
  | .assertReset => .ok { s.assertRst with host := rest }
  | .releaseReset => .ok { s.releaseRst with host := rest }

/-- The host's turn: its next access, or nothing where none is pending (R292). -/
def State.hostTurn (s : State) : Host.Outcome State Fault Refusal :=
  match s.host with
  | [] => .next s
  | op :: rest =>
    match s.perform op rest with
    | .ok s' => .next s'
    | .error f => .fault f

end Sys2Proof.Machine
end

