-- ==== Sys2Proof/Machine/Engine.lean ====
section
/-! DEFINITION. The engine's completion step (spec R251, R254) and the schedule of the two agents (R300). -/

namespace Sys2Proof.Machine

open Sys2Proof

/-- A completion is due: BUSY, the latency elapsed (R251), and RST not asserted (R290). -/
def State.completionDue (s : State) : Bool := !s.rst && s.status.busy && s.remaining == 0

/-- The completion step (R254): an illegal word completes with IllegalCommand, a command runs its body. -/
def State.completion (s : State) : Host.Outcome State Fault Refusal :=
  match decode s.cmd with
  | .ok i => exec i s
  | .error _ => .next (s.complete .illegalCommand)

/-- One cycle less until the completion of the command in progress, if there is one (R51, R251). -/
def State.tick (s : State) : State :=
  if !s.rst && s.status.busy then { s with remaining := s.remaining - 1 } else s

/-- One step: the completion where one is due, the host's turn otherwise (R300). -/
def State.cycle (s : State) : Host.Outcome State Fault Refusal :=
  if s.completionDue then s.completion else s.tick.hostTurn

/-- The word `w` latched and its completion due, as a CMD write whose latency has elapsed leaves it (R250, R251). -/
def State.withCommandDue (s : State) (w : Word) : State := { s.issue w 0 with rst := false }

end Sys2Proof.Machine
end

