-- ==== Sys2Proof/Machine/Step.lean ====
section
/-! DEFINITION. One step of the machine (spec R23, R300), and the state in which the next step runs a given
command word. -/

namespace Sys2Proof.Machine

open Sys2Proof

/-- One step: the engine's completion where one is due, else the host's turn. -/
def step (s : State) : Host.Outcome State Fault Refusal := s.cycle

/-- `s` with the word of bits `w` (bits at or above `nbits` zero) latched in CMD and due. AIM-CORE fetches nothing
(R31): this stands for the host's CMD write. -/
def State.withFetchWord (s : State) (nbits w : Nat) : State :=
  s.withCommandDue (BitVec.ofNat 32 (w % 2 ^ nbits))

end Sys2Proof.Machine
end

