-- ==== Sys2Proof/Machine/Assembler.lean ====
section
/-! DEFINITION. The assembler syntax and its pseudo-instructions (spec R111, R112), and the host-program
notation (R113) as pending host accesses. Text is a list of characters. -/

namespace Sys2Proof.Machine

open Sys2Proof

/-- One command line of R111, or a pseudo-instruction of R112, with its numbers as written. -/
inductive AsmLine where
  | nop
  | fadd (d a b : Nat)
  | fmul (d a b : Nat)
  | fexp (d a b : Nat)
  | fexpm (d a k : Nat)
  | finv (d a : Nat)
  | vecmat (d a m : Nat)
  | matmat (d a b : Nat)
  | genlayer (d s : Nat)
  | eval
  | fsqr (d a : Nat)
  | fmov (d a : Nat)
  | fclr (d a : Nat)
deriving DecidableEq, Repr

/-- eN, N = 0 to 15; any other is refused (R111). -/
def elemNumber (n : Nat) : Option ElemIx := if n < 16 then some (BitVec.ofNat 4 n) else none

/-- mN, N = 0 to 3; any other is refused (R111). -/
def matNumber (n : Nat) : Option MatIx := if n < 4 then some (BitVec.ofNat 2 n) else none

/-- IMM8 of `fexpm`'s k: k - 1, for 1 ≤ k ≤ 256 only (R103, R111). -/
def powerImm (k : Nat) : Option (BitVec 8) :=
  if 1 ≤ k ∧ k ≤ 256 then some (BitVec.ofNat 8 (k - 1)) else none

/-- IMM8 of `genlayer`'s s, for 1 ≤ s ≤ 4 only (R104, R111). -/
def layerImm (s : Nat) : Option (BitVec 8) := if 1 ≤ s ∧ s ≤ 4 then some (BitVec.ofNat 8 s) else none

/-- The command of a line (R111), pseudo-instructions expanded (R112); none where the assembler refuses it. -/
def assemble : AsmLine → Option Instr
  | .nop => some .nop
  | .fadd d a b => do some (.fadd (← elemNumber d) (← elemNumber a) (← elemNumber b))
  | .fmul d a b => do some (.fmul (← elemNumber d) (← elemNumber a) (← elemNumber b))
  | .fexp d a b => do some (.fexp (← elemNumber d) (← elemNumber a) (← elemNumber b))
  | .fexpm d a k => do some (.fexpm (← elemNumber d) (← elemNumber a) (← powerImm k))
  | .finv d a => do some (.finv (← elemNumber d) (← elemNumber a))
  | .vecmat d a m => do some (.vecmat (← elemNumber d) (← elemNumber a) (← matNumber m))
  | .matmat d a b => do some (.matmat (← matNumber d) (← matNumber a) (← matNumber b))
  | .genlayer d s => do some (.genlayer (← elemNumber d) (← layerImm s))
  | .eval => some .eval
  | .fsqr d a => do some (.fmul (← elemNumber d) (← elemNumber a) (← elemNumber a))
  | .fmov d a => do some (.fexpm (← elemNumber d) (← elemNumber a) (← powerImm 1))
  | .fclr d a => do some (.fadd (← elemNumber d) (← elemNumber a) (← elemNumber a))

/-- The value of a digit below `base`, 10 or 16. -/
def digitValue (base : Nat) (c : Char) : Option Nat :=
  let n := c.toNat
  let v := if 48 ≤ n ∧ n ≤ 57 then n - 48 else if 97 ≤ n ∧ n ≤ 102 then n - 87
    else if 65 ≤ n ∧ n ≤ 70 then n - 55 else 16
  if v < base then some v else none

/-- The number written by a string of digits, most significant first, after `acc`. DESIGN CHOICE (log 17): a number
is read by its value, so leading zeros are accepted (`003` is 3), on which R111 is silent. -/
def digitsFrom (base : Nat) : Nat → List Char → Option Nat
  | acc, [] => some acc
  | acc, c :: cs =>
    match digitValue base c with
    | some v => digitsFrom base (acc * base + v) cs
    | none => none

/-- A decimal or 0x-prefixed hexadecimal number (R111). DESIGN CHOICE (log 17): leading zeros are accepted, and the
prefix is a lower-case `0x` with at least one digit behind it. -/
def parseNumber : List Char → Option Nat
  | [] => none
  | '0' :: 'x' :: c :: cs => digitsFrom 16 0 (c :: cs)
  | cs => digitsFrom 10 0 cs

/-- A register name: its letter, then its number (R111). DESIGN CHOICE (log 17): the number is decimal and read by its
value, so leading zeros are accepted (`e007` is e7). -/
def parseRegister (letter : Char) : List Char → Option Nat
  | l :: c :: cs => if l = letter then digitsFrom 10 0 (c :: cs) else none
  | _ => none

/-- The words and commas of a line; a semicolon begins a comment (R111). `cur` is the word under way, reversed. -/
def tokensFrom (cur : List Char) : List Char → List (List Char)
  | [] => if cur.isEmpty then [] else [cur.reverse]
  | c :: cs =>
    let done := if cur.isEmpty then [] else [cur.reverse]
    if c = ';' then done
    else if c = ',' then done ++ [','] :: tokensFrom [] cs
    else if c.isWhitespace then done ++ tokensFrom [] cs
    else tokensFrom (c :: cur) cs

/-- The operands of a token list in which commas stand between them and nowhere else. -/
def operandsOf : List (List Char) → Option (List (List Char))
  | [] => some []
  | [t] => if t = [','] then none else some [t]
  | t :: [','] :: u :: rest =>
    if t = [','] then none
    else match operandsOf (u :: rest) with
      | some ops => some (t :: ops)
      | none => none
  | _ => none

/-- A line with two element registers and a third operand. -/
def parseThree (mk : Nat → Nat → Nat → AsmLine) (third : List Char → Option Nat) :
    List (List Char) → Option AsmLine
  | [d, a, b] => do some (mk (← parseRegister 'e' d) (← parseRegister 'e' a) (← third b))
  | _ => none

/-- A line with one element register and a second operand. -/
def parseTwo (mk : Nat → Nat → AsmLine) (second : List Char → Option Nat) :
    List (List Char) → Option AsmLine
  | [d, a] => do some (mk (← parseRegister 'e' d) (← second a))
  | _ => none

/-- `matmat mD, mA, mB`. -/
def parseMatmat : List (List Char) → Option AsmLine
  | [d, a, b] => do
    some (.matmat (← parseRegister 'm' d) (← parseRegister 'm' a) (← parseRegister 'm' b))
  | _ => none

/-- A line without operands. -/
def parseNone (line : AsmLine) : List (List Char) → Option AsmLine
  | [] => some line
  | _ => none

/-- The command line of a name and its operands (R111, R112). -/
def parseCommand (name : List Char) (ops : List (List Char)) : Option AsmLine :=
  if name = ['n', 'o', 'p'] then parseNone .nop ops
  else if name = ['f', 'a', 'd', 'd'] then parseThree .fadd (parseRegister 'e') ops
  else if name = ['f', 'm', 'u', 'l'] then parseThree .fmul (parseRegister 'e') ops
  else if name = ['f', 'e', 'x', 'p'] then parseThree .fexp (parseRegister 'e') ops
  else if name = ['f', 'e', 'x', 'p', 'm'] then parseThree .fexpm parseNumber ops
  else if name = ['f', 'i', 'n', 'v'] then parseTwo .finv (parseRegister 'e') ops
  else if name = ['v', 'e', 'c', 'm', 'a', 't'] then parseThree .vecmat (parseRegister 'm') ops
  else if name = ['m', 'a', 't', 'm', 'a', 't'] then parseMatmat ops
  else if name = ['g', 'e', 'n', 'l', 'a', 'y', 'e', 'r'] then parseTwo .genlayer parseNumber ops
  else if name = ['e', 'v', 'a', 'l'] then parseNone .eval ops
  else if name = ['f', 's', 'q', 'r'] then parseTwo .fsqr (parseRegister 'e') ops
  else if name = ['f', 'm', 'o', 'v'] then parseTwo .fmov (parseRegister 'e') ops
  else if name = ['f', 'c', 'l', 'r'] then parseTwo .fclr (parseRegister 'e') ops
  else none

/-- The words of one line of assembler text: one word, none of it for a blank or comment line (R111). -/
def assembleText (line : List Char) : Option (List Word) :=
  match tokensFrom [] line with
  | [] => some []
  | name :: rest => do
    let ops ← operandsOf rest
    let cmd ← parseCommand name ops
    let i ← assemble cmd
    some [encode i]

/-- The bytes of a hex string, in string order (R113). -/
def hexBytes : List Char → Option (List Byte)
  | [] => some []
  | [_] => none
  | a :: b :: cs => do
    let hi ← digitValue 16 a
    let lo ← digitValue 16 b
    let bs ← hexBytes cs
    some (BitVec.ofNat 8 (16 * hi + lo) :: bs)

/-- `w32 A, V` (R113). -/
def hostW32 (a : PortAddr) (v : Word) : List HostOp := [.write a 4 v]

/-- `wbytes A, …`: one byte at A, A+1, and so on (R113). -/
def hostWbytes : PortAddr → List Byte → List HostOp
  | _, [] => []
  | a, b :: bs => .write a 1 (b.setWidth 32) :: hostWbytes (a + 1) bs

/-- `r32 A` (R113). -/
def hostR32 (a : PortAddr) : List HostOp := [.read a 4]

/-- `cmd …` (R113). -/
def hostCmd (i : Instr) : List HostOp := hostW32 0x0000 (encode i)

/-- `wait` (R113). -/
def hostWait : List HostOp := [.wait]

end Sys2Proof.Machine
end

