-- ==== Sys2Proof/Safety.lean ====
section
/-! DEFINITION. The terms claims use: what a completion leaves unchanged (spec R254, R255), the invariant of the
machine, when a completion is due, the locations a busy engine protects (R301, R303), the end of a run (R306),
and the carry-less product of polynomials (R17, R142). -/

namespace Sys2Proof.Machine

open Sys2Proof

/-- Everything a command never writes is the same: CMD, CTRL, FSEL, IVLEN, PTLEN, RST, the host's list and
observation, the fresh count. -/
abbrev SameControls (s t : State) : Prop :=
  t.cmd = s.cmd ∧ t.ie = s.ie ∧ t.fsel = s.fsel ∧ t.ivlen = s.ivlen ∧ t.ptlen = s.ptlen ∧ t.rst = s.rst ∧
    t.host = s.host ∧ t.reads = s.reads ∧ t.fresh = s.fresh

/-- A completion with code OK: BUSY 0, DONE 1, ECODE 0, ERR, HZ and ERRCMD unchanged (R254). -/
abbrev Succeeded (s t : State) : Prop :=
  t.status = { busy := false, done := true, err := s.status.err, hz := s.status.hz, ecode := 0 } ∧
    t.errcmd = s.errcmd ∧ t.remaining = 0 ∧ SameControls s t

/-- A completion with an error code: BUSY 0, DONE 1, ERR 1, ECODE the code, HZ unchanged, ERRCMD the command
word, no storage written (R254, R255). -/
abbrev FailedWith (code : BitVec 4) (s t : State) : Prop :=
  t.status = { busy := false, done := true, err := true, hz := s.status.hz, ecode := code } ∧
    t.errcmd = s.cmd ∧ t.remaining = 0 ∧ t.mem = s.mem ∧ SameControls s t

/-- Every byte outside the `n` bytes from `a` on reads as before. -/
abbrev KeptOutside (m m' : Memory) (a n : Nat) : Prop :=
  ∀ x, x < a ∨ a + n ≤ x → m'.byteAt x = m.byteAt x

/-- The completion of the command in CMD is due: BUSY, its latency elapsed, RST not asserted (R251, R290). -/
abbrev Due (s : State) : Prop := s.rst = false ∧ s.status.busy = true ∧ s.remaining = 0

/-- CT_BUF is written whole or not at all: only EVAL writes it, all 32 bytes (R35, R39). -/
abbrev ctBufferWhole (m : Memory) : Prop :=
  (∀ k, k < 32 → m.byteAt (ctBase + k) = none) ∨ (∀ k, k < 32 → (m.byteAt (ctBase + k)).isSome = true)

/-- The machine's invariant: storage in canonical form; ECODE a produced code (R252); never BUSY and DONE at
once (R250, R254); no remaining latency while IDLE (R51); after a failed command ERRCMD is the word in CMD until
the next issue (R47); CT_BUF whole (R39). -/
abbrev State.Inv (s : State) : Prop :=
  s.mem.wf = true ∧ s.status.ecode.toNat ≤ 4 ∧ ¬(s.status.busy = true ∧ s.status.done = true) ∧
    (s.status.busy = false → s.remaining = 0) ∧
    (s.status.busy = false → s.status.ecode ≠ 0 → s.errcmd = s.cmd) ∧ ctBufferWhole s.mem

/-- The locations whose write while BUSY is a hazard: CMD, FSEL, IVLEN, PTLEN, IV_BUF, PT_BUF, the element and
the matrix window (R301). -/
abbrev Protected (a : Nat) : Prop :=
  a = 0x00 ∨ a = 0x0C ∨ a = 0x10 ∨ a = 0x14 ∨ (0x0100 ≤ a ∧ a < 0x0140) ∨ (0x0200 ≤ a ∧ a < 0x0400) ∨
    (0x8000 ≤ a ∧ a < 0x10000)

/-- The access is one of the host contract: 1, 2 or 4 bytes, aligned, 4 bytes in the control region (R71). -/
abbrev InContract (a n : Nat) : Prop := (n = 1 ∨ n = 2 ∨ n = 4) ∧ a % n = 0 ∧ (a < 0x0100 → n = 4)

/-- The run has ended: the host has no access left and the engine is IDLE (R306). -/
abbrev State.runEnded (s : State) : Prop := s.host = [] ∧ s.status.busy = false

/-- The launch premise common to all programs: out of reset, no command in flight (R306). -/
abbrev State.launch (s : State) : Prop := s.rst = false ∧ s.status.busy = false

/-- The element register a command of the field family or VECMAT writes (R100, R105). -/
def elementDest : Instr → Option ElemIx
  | .fadd rd _ _ => some rd
  | .fmul rd _ _ => some rd
  | .fexp rd _ _ => some rd
  | .fexpm rd _ _ => some rd
  | .finv rd _ => some rd
  | .vecmat rd _ _ => some rd
  | .nop => none
  | .matmat _ _ _ => none
  | .genlayer _ _ => none
  | .eval => none

/-- The fields a word's opcode does not use, by R105, are not all zero (R106). -/
def unusedFieldNonzero (w : Word) : Prop :=
  match (fieldOp w).toNat with
  | 0 => fieldRd w ≠ 0 ∨ fieldRs1 w ≠ 0 ∨ fieldRs2 w ≠ 0 ∨ fieldMd w ≠ 0 ∨ fieldMs1 w ≠ 0 ∨ fieldMs2 w ≠ 0 ∨
      fieldImm8 w ≠ 0
  | 1 => fieldMd w ≠ 0 ∨ fieldMs1 w ≠ 0 ∨ fieldMs2 w ≠ 0 ∨ fieldImm8 w ≠ 0
  | 2 => fieldMd w ≠ 0 ∨ fieldMs1 w ≠ 0 ∨ fieldMs2 w ≠ 0 ∨ fieldImm8 w ≠ 0
  | 3 => fieldMd w ≠ 0 ∨ fieldMs1 w ≠ 0 ∨ fieldMs2 w ≠ 0 ∨ fieldImm8 w ≠ 0
  | 4 => fieldRs2 w ≠ 0 ∨ fieldMd w ≠ 0 ∨ fieldMs1 w ≠ 0 ∨ fieldMs2 w ≠ 0
  | 5 => fieldRs2 w ≠ 0 ∨ fieldMd w ≠ 0 ∨ fieldMs1 w ≠ 0 ∨ fieldMs2 w ≠ 0 ∨ fieldImm8 w ≠ 0
  | 6 => fieldRs2 w ≠ 0 ∨ fieldMd w ≠ 0 ∨ fieldMs2 w ≠ 0 ∨ fieldImm8 w ≠ 0
  | 7 => fieldRd w ≠ 0 ∨ fieldRs1 w ≠ 0 ∨ fieldRs2 w ≠ 0 ∨ fieldImm8 w ≠ 0
  | 8 => fieldRs1 w ≠ 0 ∨ fieldRs2 w ≠ 0 ∨ fieldMd w ≠ 0 ∨ fieldMs1 w ≠ 0 ∨ fieldMs2 w ≠ 0
  | 9 => fieldRd w ≠ 0 ∨ fieldRs1 w ≠ 0 ∨ fieldRs2 w ≠ 0 ∨ fieldMd w ≠ 0 ∨ fieldMs1 w ≠ 0 ∨ fieldMs2 w ≠ 0 ∨
      fieldImm8 w ≠ 0
  | _ => False

/-- The sum of x·X^i over the set bits i < n of y. -/
def carrylessUpTo (x y : Nat) : Nat → Nat
  | 0 => 0
  | n + 1 => carrylessUpTo x y n ^^^ (if y.testBit n then x <<< n else 0)

/-- The product of two polynomials over GF(2), bit k the coefficient of X^k, without reduction (R17). -/
def carryless (x y : Nat) : Nat := carrylessUpTo x y (bitLen y)

/-- All entries of a matrix are field elements (R180). -/
abbrev EntriesBelow (d : Nat) (a : List Nat) : Prop := ∀ x ∈ a, x < 2 ^ d

/-- The identity matrix of R185. -/
def identityMatrix (d : Nat) : List Nat := (List.range d).map fun j => 2 ^ j

/-- A d-entry matrix is invertible: v ↦ vec_mat(v, A) is a bijection on the values below 2^d (R186). -/
abbrev Invertible (d : Nat) (a : List Nat) : Prop :=
  (∀ v, v < 2 ^ d → vecMat v a < 2 ^ d) ∧ ∀ w, w < 2 ^ d → ∃ v, (v < 2 ^ d ∧ vecMat v a = w) ∧
    ∀ v', v' < 2 ^ d → vecMat v' a = w → v' = v

/-- The stream bytes of the lower rows of one layer, and of its upper rows (R208). -/
def rowBytes : FieldSel → Nat
  | .gf128 => 1072
  | .gf192 => 2376
  | .gf256 => 4192

/-- Bit `b` of the stream bytes from position `pos` on, least significant bit of each byte first (R21, R203). -/
def streamBit (xof : Nat → Byte) (pos b : Nat) : Bool := (xof (pos + b / 8)).getLsbD (b % 8)

/-- `x` is lower row i, bit by bit, its chunk of nL(i) bytes at stream position `pos`: bit i set, the bits below clear,
the bits above the chunk's, shifted so that its top bit is bit d-1 (R204). -/
abbrev IsLowerRow (f : FieldSel) (xof : Nat → Byte) (pos i x : Nat) : Prop :=
  ∀ j, x.testBit j = (decide (j = i) || (decide (i < j ∧ j < f.degree) &&
    streamBit xof pos (j - 8 * (f.bytes - (f.degree - i + 6) / 8))))

/-- `x` is upper row i, bit by bit, its chunk of nU(i) bytes at stream position `pos`: bit i set, the bits above clear,
the bits below the chunk's, unshifted (R205). -/
abbrev IsUpperRow (xof : Nat → Byte) (pos i x : Nat) : Prop :=
  ∀ j, x.testBit j = (decide (j = i) || (decide (j < i) && streamBit xof pos j))

/-- How many stream bytes the rows before row i of a factor take, row m taking `len m` (R203). -/
def rowOffset (len : Nat → Nat) (i : Nat) : Nat := ((List.range i).map len).sum

/-- `a` is the matrix of layer k: U times L, all the lower rows read first, then all the upper rows, behind the k layers
before it (R206). -/
abbrev IsLayerMatrix (f : FieldSel) (xof : Nat → Byte) (k : Nat) (a : List Nat) : Prop :=
  ∃ l u : List Nat, l.length = f.degree ∧ u.length = f.degree ∧
    (∀ i x, l[i]? = some x →
      IsLowerRow f xof (2 * k * rowBytes f + rowOffset (fun m => (f.degree - m + 6) / 8) i) i x) ∧
    (∀ i x, u[i]? = some x →
      IsUpperRow xof ((2 * k + 1) * rowBytes f + rowOffset (fun m => (m + 7) / 8) i) i x) ∧
    a = matMat u l

/-- `ct` is what R231 gives for `pt`, its steps written out with the exponents of R12 for each variant. -/
abbrev EvalOutput (f : FieldSel) (xof : Nat → Byte) (pt ct : List Byte) : Prop :=
  let x := fromBytes pt
  let t := fun e => gfExp f x (2 ^ e - 1)
  match f with
  | .gf128 => ∃ a0 a1 b, generateLayer f xof 2 = ([a0, a1], b) ∧
      ct = toBytes 16 (gfExp f (b ^^^ vecMat (t 3) a0 ^^^ vecMat (t 27) a1) (2 ^ 5 - 1) ^^^ x)
  | .gf192 => ∃ a0 a1 b, generateLayer f xof 2 = ([a0, a1], b) ∧
      ct = toBytes 24 (gfExp f (b ^^^ vecMat (t 5) a0 ^^^ vecMat (t 29) a1) (2 ^ 7 - 1) ^^^ x)
  | .gf256 => ∃ a0 a1 a2 b, generateLayer f xof 3 = ([a0, a1, a2], b) ∧
      ct = toBytes 32
        (gfExp f (b ^^^ vecMat (t 3) a0 ^^^ vecMat (t 53) a1 ^^^ vecMat (t 7) a2) (2 ^ 5 - 1) ^^^ x)

/-- The cycle of a step that is no completion has passed: one less until the completion of the command in progress,
if there is one (R51, R251; that a step is a cycle is log 3's choice). -/
abbrev State.cyclePassed (s : State) : State :=
  if s.rst = false ∧ s.status.busy = true then { s with remaining := s.remaining - 1 } else s

end Sys2Proof.Machine
end

