-- ==== Sys2Proof/Certificates/Slice0/Obligations.lean ====
section
/-! DEFINITION. The statements for the provers. Each says which rule of spec/ it formalises. -/

open Sys2Proof Sys2Proof.Machine

/-! ### Encoding (spec/30_encoding.md) -/

/-- Decoding the word of a command gives the command back, for every operand value (R100, R101, R105). -/
def Obligations.EncodeThenDecode : Prop :=
  ∀ i : Instr, i.wellFormed = true → decode (encode i) = .ok i

/-- A word that decodes is the word of what it decodes to: no word has a second meaning (R105, R109). -/
def Obligations.DecodeThenEncode : Prop :=
  ∀ (w : Word) (i : Instr), decode w = .ok i → i.wellFormed = true ∧ encode i = w

/-- A word with opcode 0x0A to 0x3F completes with IllegalCommand, code 3 (R107). -/
def Obligations.ReservedOpcodeIsIllegal : Prop :=
  ∀ s : State, Due s → 10 ≤ (s.cmd.extractLsb' 0 6).toNat → ∃ t, step s = .next t ∧ FailedWith 3 s t

/-- A word with opcode 0 to 9 and a nonzero unused field completes with IllegalCommand, code 3 (R106). -/
def Obligations.UnusedFieldIsIllegal : Prop :=
  ∀ s : State, Due s → unusedFieldNonzero s.cmd → ∃ t, step s = .next t ∧ FailedWith 3 s t

/-- A GENLAYER word with IMM8 = 0 or IMM8 ≥ 5 completes with IllegalCommand, code 3 (R108). -/
def Obligations.LayerCountIsIllegal : Prop :=
  ∀ (s : State) (rd : ElemIx) (imm8 : BitVec 8), Due s →
    s.cmd = (8#32 ||| rd.setWidth 32 <<< 6 ||| imm8.setWidth 32 <<< 24) →
    (imm8.toNat = 0 ∨ 5 ≤ imm8.toNat) → ∃ t, step s = .next t ∧ FailedWith 3 s t

/-- Words the spec writes out decode to the commands it says (spec/95_test_vectors.md L2.1; R105). -/
def Obligations.SpecWordsDecode : Prop :=
  decode 0x00000000#32 = .ok .nop ∧ decode 0x00004001#32 = .ok (.fadd 0 0 1) ∧
  decode 0x000084C2#32 = .ok (.fmul 3 1 2) ∧ decode 0x00000503#32 = .ok (.fexp 4 1 0) ∧
  decode 0x020005C4#32 = .ok (.fexpm 7 1 2) ∧ decode 0x00000545#32 = .ok (.finv 5 1) ∧
  decode 0x00100946#32 = .ok (.vecmat 5 2 1) ∧ decode 0x00580007#32 = .ok (.matmat 2 1 1) ∧
  decode 0x030003C8#32 = .ok (.genlayer 15 3) ∧ decode 0x00000009#32 = .ok .eval

/-- The assembler's pseudo-instructions compute the square, the copy and zero (R112). -/
def Obligations.PseudoInstructionResults : Prop :=
  ∀ (s : State) (d a : ElemIx) (x : Nat), s.mem.elem a = some x → x < 2 ^ s.fsel.degree →
    (∃ i t, assemble (.fsqr d.toNat a.toNat) = some i ∧ exec i s = .next t ∧ Succeeded s t ∧
      t.mem.elem d = some (gfMul s.fsel x x)) ∧
    (∃ i t, assemble (.fmov d.toNat a.toNat) = some i ∧ exec i s = .next t ∧ Succeeded s t ∧
      t.mem.elem d = some x) ∧
    (∃ i t, assemble (.fclr d.toNat a.toNat) = some i ∧ exec i s = .next t ∧ Succeeded s t ∧
      t.mem.elem d = some 0)

/-! ### The step (spec/60_exceptions.md, spec/70_reset_and_hazards.md) -/

/-- When a completion is due and CMD decodes to a command, the step is that command's meaning (R251, R254). -/
def Obligations.DueStepRunsTheCommand : Prop :=
  ∀ (s : State) (i : Instr), Due s → decode s.cmd = .ok i → step s = exec i s

/-- When no completion is due, the step is the host's turn, one cycle nearer to the completion where a command is in
progress (R300): nothing where the host has no access left; a read appends the value read to the observation (R306); a
write changes what MemWrite changes; an access that faults stops the machine; `wait` notes STATUS as it polls it and
stays while bit 0 is 1 (R113); a wait for IRQ stays while IRQ is 0 (R303). That a step is a cycle in which the host makes
at most one access, that the host and its observation are lists in State, and that each poll of `wait` is noted, are the
model's choices (logs 3, 5, 6). -/
def Obligations.OtherStepIsTheHostTurn : Prop :=
  ∀ s : State, ¬ Due s →
    step s = s.cyclePassed.hostTurn ∧
    (s.host = [] → step s = .next s.cyclePassed) ∧
    (∀ rest, s.host = .idle :: rest → step s = .next { s.cyclePassed with host := rest }) ∧
    (∀ a n rest v s', s.host = .read a n :: rest → s.cyclePassed.memRead a n = .ok (v, s') →
      step s = .next { s' with reads := s.reads ++ [v], host := rest }) ∧
    (∀ a n rest r, s.host = .read a n :: rest → s.cyclePassed.memRead a n = .error r → step s = .fault r) ∧
    (∀ a n w rest s', s.host = .write a n w :: rest → s.cyclePassed.memWrite a n w = .ok s' →
      step s = .next { s' with host := rest }) ∧
    (∀ a n w rest r, s.host = .write a n w :: rest → s.cyclePassed.memWrite a n w = .error r →
      step s = .fault r) ∧
    (∀ rest v s', s.host = .wait :: rest → s.cyclePassed.memRead 0x0004 4 = .ok (v, s') →
      step s = .next { s' with reads := s.reads ++ [v], host := if v.getLsbD 0 then s.host else rest }) ∧
    (∀ rest, s.host = .wait :: rest → s.rst = false →
      step s = .next { s.cyclePassed with
        reads := s.reads ++ [s.status.word], host := if s.status.busy then s.host else rest }) ∧
    (∀ rest, s.host = .waitIrq :: rest →
      step s = .next { s.cyclePassed with host := if s.irq then rest else s.host })

/-- The invariant holds right after reset (R52, R291). -/
def Obligations.ResetMeetsInvariant : Prop := State.reset.Inv

/-- Every step keeps the invariant (R35, R47, R51, R250, R252, R254). -/
def Obligations.StepKeepsInvariant : Prop := ∀ s t : State, s.Inv → step s = .next t → t.Inv

/-- A completion, whatever the command: BUSY falls, DONE is set, HZ stays; with code OK the error report stays; with
a code 1 to 4, ERR is set, ERRCMD takes CMD, and nothing else changes (R255). -/
def Obligations.CompletionReport : Prop :=
  ∀ s t : State, Due s → step s = .next t →
    t.status.busy = false ∧ t.status.done = true ∧ t.status.hz = s.status.hz ∧ t.status.ecode.toNat ≤ 4 ∧
    (t.status.ecode = 0 → t.status.err = s.status.err ∧ t.errcmd = s.errcmd) ∧
    (t.status.ecode ≠ 0 → t = { s with
      status := { busy := false, done := true, err := true, hz := s.status.hz, ecode := t.status.ecode }
      errcmd := s.cmd })

/-- ERRCMD: loaded with the latched word at a completion with ECODE ≠ 0, unchanged at a successful one; no step
but a completion writes it, RST aside (O18, O19); a host write to it is ignored and no hazard, whatever BUSY is; a read
gives it; reset 0 (R47). -/
def Obligations.ErrcmdRule : Prop :=
  (∀ s t : State, Due s → step s = .next t →
    (t.status.ecode ≠ 0 → t.errcmd = s.cmd) ∧ (t.status.ecode = 0 → t.errcmd = s.errcmd)) ∧
  (∀ s t : State, ¬ Due s → s.rst = false → (∀ rest, s.host ≠ .assertReset :: rest) → step s = .next t →
    t.errcmd = s.errcmd) ∧
  (∀ (s : State) (v : Word), s.memWrite 0x18 4 v = .ok s) ∧
  (∀ s : State, s.rst = false → s.memRead 0x18 4 = .ok (s.errcmd, s)) ∧
  State.reset.errcmd = 0

/-- A CMD write while IDLE issues the word, whatever it is: BUSY set, DONE and IRQ fall, the rest of STATUS, ERRCMD
and storage stay; a CMD write while BUSY is no issue (R250). -/
def Obligations.CmdWriteIssues : Prop :=
  (∀ (s : State) (w : Word) (rest : List HostOp), s.rst = false → s.status.busy = false →
    s.host = .write 0x0000 4 w :: rest →
    ∃ t, step s = .next t ∧ t.cmd = w ∧
      t.status = { busy := true, done := false, err := s.status.err, hz := s.status.hz, ecode := s.status.ecode } ∧
      t.irq = false ∧ t.errcmd = s.errcmd ∧ t.mem = s.mem ∧ t.ie = s.ie ∧ t.fsel = s.fsel ∧ t.ivlen = s.ivlen ∧
      t.ptlen = s.ptlen ∧ t.host = rest) ∧
  (∀ (s s' : State) (w : Word), s.rst = false → s.status.busy = true → s.memWrite 0x0000 4 w = .ok s' →
    s'.cmd = s.cmd ∧ s'.status.done = s.status.done ∧ s'.remaining = s.remaining)

/-- While a command is in progress and not yet due, no step changes its word, its operands or its parameters, whatever
the host accesses, and BUSY stays (R85). The step that asserts RST is O19's, since what it leaves is the model's choice
(log 7). -/
def Obligations.OperandsFixedWhileBusy : Prop :=
  ∀ s t : State, s.rst = false → s.status.busy = true → s.remaining ≠ 0 →
    (∀ rest, s.host ≠ .assertReset :: rest) → step s = .next t →
    t.mem = s.mem ∧ t.cmd = s.cmd ∧ t.fsel = s.fsel ∧ t.ivlen = s.ivlen ∧ t.ptlen = s.ptlen ∧
      t.status.busy = true

/-- The completion comes: a command in progress is due, its word and operands as they were, after as many steps as
its remaining latency, whatever accesses the host makes meanwhile, RST not asserted and no access faulting (R251). That the latency is counted
in steps is the model's choice (log 3). -/
def Obligations.CompletionComes : Prop :=
  ∀ s t : State, s.rst = false → s.status.busy = true → HostOp.assertReset ∉ s.host →
    Host.Core.run core s.remaining s = .next t → Due t ∧ t.cmd = s.cmd ∧ t.mem = s.mem

/-- IRQ is IE and DONE: a completion raises it where IE is 1, for success and failure alike; writing 1 to DONE clears it
(R50, R258). -/
def Obligations.IrqLevel : Prop :=
  (∀ s t : State, Due s → step s = .next t → t.irq = s.ie) ∧
  (∀ (s : State) (v : Word), s.rst = false → v.getLsbD 1 = true →
    ∃ s', s.memWrite 0x0004 4 v = .ok s' ∧ s'.irq = false) ∧
  (∀ s s' : State, ∀ v : Word, s.rst = false → s.memWrite 0x0008 4 v = .ok s' →
    s'.irq = (v.getLsbD 0 && s.status.done))

/-! ### Reset (spec/10_state.md, spec/70_reset_and_hazards.md) -/

/-- After reset every control register reads 0, IRQ is 0, the engine is IDLE, and no byte of storage has a value
(R52, R35). -/
def Obligations.ResetValues : Prop :=
  (∀ a ∈ [0x0000#16, 0x0004#16, 0x0008#16, 0x000C#16, 0x0010#16, 0x0014#16, 0x0018#16],
    State.reset.memRead a 4 = .ok (0, State.reset)) ∧
  State.reset.fsel = .gf128 ∧ State.reset.irq = false ∧ State.reset.engine = .idle ∧
  ∀ x, State.reset.mem.byteAt x = none

/-- Deasserting RST puts every control register at its reset value, leaves storage unwritten and the engine IDLE,
whatever command was in progress; the host goes on (R290, R291). -/
def Obligations.RstReleaseResets : Prop :=
  ∀ (s : State) (rest : List HostOp), s.rst = true → s.host = .releaseReset :: rest →
    ∃ t, step s = .next t ∧ t.cmd = 0 ∧
      t.status = { busy := false, done := false, err := false, hz := false, ecode := 0 } ∧ t.ie = false ∧
      t.fsel = .gf128 ∧ t.ivlen = 0 ∧ t.ptlen = 0 ∧ t.errcmd = 0 ∧ t.rst = false ∧
      (∀ x, t.mem.byteAt x = none) ∧ t.engine = .idle ∧ t.irq = false ∧ t.host = rest ∧ t.reads = s.reads

/-- The step in which the host asserts RST leads to RST asserted. While it is asserted no host access takes effect: writes
are discarded, reads return a draw, no completion happens (R290). That a draw is Config.draw applied to a count that it
advances is the model's choice (log 4), and so is that the registers and storage keep their values until the deassertion
(log 7). -/
def Obligations.RstBlocksEverything : Prop :=
  (∀ (s : State) (rest : List HostOp), ¬ Due s → s.host = .assertReset :: rest →
    ∃ t, step s = .next t ∧ t.rst = true ∧ t.host = rest ∧ t.mem = s.mem ∧ t.cmd = s.cmd ∧ t.status = s.status ∧
      t.ie = s.ie ∧ t.fsel = s.fsel ∧ t.ivlen = s.ivlen ∧ t.ptlen = s.ptlen ∧ t.errcmd = s.errcmd ∧
      t.reads = s.reads) ∧
  (∀ (s : State) (a : PortAddr) (n : Nat) (v : Word), s.rst = true → InContract a.toNat n →
    s.memWrite a n v = .ok s ∧
    s.memRead a n = .ok (BitVec.ofNat 32 ((Config.draw s.fresh).toNat % 2 ^ (8 * n)), { s with fresh := s.fresh + 1 })) ∧
  (∀ s t : State, s.rst = true → (∀ rest, s.host ≠ .releaseReset :: rest) → step s = .next t →
    t.mem = s.mem ∧ t.cmd = s.cmd ∧ t.status = s.status ∧ t.ie = s.ie ∧ t.fsel = s.fsel ∧ t.ivlen = s.ivlen ∧
      t.ptlen = s.ptlen ∧ t.errcmd = s.errcmd ∧ t.remaining = s.remaining ∧ t.rst = true)

/-! ### The commands complete (spec/40_field.md to spec/43_owf.md) -/

/-- NOP completes with no other effect (R140). -/
def Obligations.NopCompletes : Prop :=
  ∀ s : State, ∃ t, exec .nop s = .next t ∧ Succeeded s t ∧ t.mem = s.mem

/-- FADD of written operands below 2^d completes with their sum in E[RD], whichever registers coincide, and no other
byte changed (R141, R139). -/
def Obligations.FaddCompletes : Prop :=
  ∀ (s : State) (rd rs1 rs2 : ElemIx) (a b : Nat), s.mem.elem rs1 = some a → s.mem.elem rs2 = some b →
    a < 2 ^ s.fsel.degree → b < 2 ^ s.fsel.degree →
    ∃ t, exec (.fadd rd rs1 rs2) s = .next t ∧ Succeeded s t ∧ t.mem.elem rd = some (a ^^^ b) ∧
      KeptOutside s.mem t.mem (elemBase rd.toNat) 32

/-- FMUL of written operands below 2^d completes with their field product in E[RD] (R143). -/
def Obligations.FmulCompletes : Prop :=
  ∀ (s : State) (rd rs1 rs2 : ElemIx) (a b : Nat), s.mem.elem rs1 = some a → s.mem.elem rs2 = some b →
    a < 2 ^ s.fsel.degree → b < 2 ^ s.fsel.degree →
    ∃ t, exec (.fmul rd rs1 rs2) s = .next t ∧ Succeeded s t ∧ t.mem.elem rd = some (gfMul s.fsel a b) ∧
      KeptOutside s.mem t.mem (elemBase rd.toNat) 32

/-- FEXP of a base below 2^d and any 256-bit exponent but 0 completes with the power in E[RD] (R145). -/
def Obligations.FexpCompletes : Prop :=
  ∀ (s : State) (rd rs1 rs2 : ElemIx) (x e : Nat), s.mem.elem rs1 = some x → s.mem.elem rs2 = some e →
    x < 2 ^ s.fsel.degree → e ≠ 0 →
    ∃ t, exec (.fexp rd rs1 rs2) s = .next t ∧ Succeeded s t ∧ t.mem.elem rd = some (gfExp s.fsel x e) ∧
      KeptOutside s.mem t.mem (elemBase rd.toNat) 32

/-- FEXPM of an operand below 2^d completes with x^(2^(IMM8+1) - 1) in E[RD] (R147, R103). -/
def Obligations.FexpmCompletes : Prop :=
  ∀ (s : State) (rd rs1 : ElemIx) (imm8 : BitVec 8) (x : Nat), s.mem.elem rs1 = some x →
    x < 2 ^ s.fsel.degree →
    ∃ t, exec (.fexpm rd rs1 imm8) s = .next t ∧ Succeeded s t ∧
      t.mem.elem rd = some (gfExp s.fsel x (2 ^ (imm8.toNat + 1) - 1)) ∧
      KeptOutside s.mem t.mem (elemBase rd.toNat) 32

/-- FINV of a nonzero operand below 2^d completes with x^(2^d - 2) in E[RD] (R149, R148). -/
def Obligations.FinvCompletes : Prop :=
  ∀ (s : State) (rd rs1 : ElemIx) (x : Nat), s.mem.elem rs1 = some x → x < 2 ^ s.fsel.degree → x ≠ 0 →
    ∃ t, exec (.finv rd rs1) s = .next t ∧ Succeeded s t ∧
      t.mem.elem rd = some (gfExp s.fsel x (2 ^ s.fsel.degree - 2)) ∧
      KeptOutside s.mem t.mem (elemBase rd.toNat) 32

/-- VECMAT of a vector and a matrix below 2^d completes with their product in E[RD] (R182). -/
def Obligations.VecmatCompletes : Prop :=
  ∀ (s : State) (rd rs1 : ElemIx) (ms1 : MatIx) (v : Nat) (a : List Nat), s.mem.elem rs1 = some v →
    s.mem.matrix ms1.toNat s.fsel.degree = some a → v < 2 ^ s.fsel.degree → EntriesBelow s.fsel.degree a →
    ∃ t, exec (.vecmat rd rs1 ms1) s = .next t ∧ Succeeded s t ∧ t.mem.elem rd = some (vecMat v a) ∧
      KeptOutside s.mem t.mem (elemBase rd.toNat) 32

/-- MATMAT of matrices below 2^d completes with their product in entries 0 to d-1 of M[MD], whichever registers
coincide, and no other byte changed (R184). -/
def Obligations.MatmatCompletes : Prop :=
  ∀ (s : State) (md ms1 ms2 : MatIx) (a b : List Nat), s.mem.matrix ms1.toNat s.fsel.degree = some a →
    s.mem.matrix ms2.toNat s.fsel.degree = some b → EntriesBelow s.fsel.degree a → EntriesBelow s.fsel.degree b →
    ∃ t, exec (.matmat md ms1 ms2) s = .next t ∧ Succeeded s t ∧
      t.mem.matrix md.toNat s.fsel.degree = some (a.map fun row => vecMat row b) ∧
      KeptOutside s.mem t.mem (entryBase md.toNat 0) (32 * s.fsel.degree)

/-- GENLAYER with IVLEN = d/8 and the IV written completes with the s matrices in M[0..s-1] and the constant in E[RD], no
other byte changed, whatever the XOF is (R201). -/
def Obligations.GenlayerCompletes : Prop :=
  ∀ (s : State) (rd : ElemIx) (imm8 : BitVec 8) (iv : List Byte), 1 ≤ imm8.toNat → imm8.toNat ≤ 4 →
    s.ivlen.toNat = s.fsel.bytes → s.mem.readBytes ivBase s.fsel.bytes = some iv →
    ∃ t, exec (.genlayer rd imm8) s = .next t ∧ Succeeded s t ∧
      (∀ k, k < imm8.toNat →
        t.mem.matrix k s.fsel.degree = (generateLayer s.fsel (xofStream iv) imm8.toNat).1[k]?) ∧
      t.mem.elem rd = some (generateLayer s.fsel (xofStream iv) imm8.toNat).2 ∧
      ∀ x, (∀ k, k < imm8.toNat → x < entryBase k 0 ∨ entryBase k 0 + 32 * s.fsel.degree ≤ x) →
        (x < elemBase rd.toNat ∨ elemBase rd.toNat + 32 ≤ x) → t.mem.byteAt x = s.mem.byteAt x

/-- EVAL with PTLEN = IVLEN = 16, 24 or 32 and both buffers written so far completes with aim_eval in CT_BUF, which is
what the steps of R231 give with the exponents of R12, zeros above it, no other byte changed, whatever FSEL and the XOF
are (R230). -/
def Obligations.EvalCompletes : Prop :=
  ∀ (s : State) (f : FieldSel) (pt iv : List Byte), s.ptlen.toNat = f.bytes → s.ivlen.toNat = f.bytes →
    s.mem.readBytes ptBase f.bytes = some pt → s.mem.readBytes ivBase f.bytes = some iv →
    ∃ t, exec .eval s = .next t ∧ Succeeded s t ∧
      t.mem.readBytes ctBase f.bytes = some (aimEval f (xofStream iv) pt) ∧
      EvalOutput f (xofStream iv) pt (aimEval f (xofStream iv) pt) ∧
      (∀ k, f.bytes ≤ k → k < 32 → t.mem.byteAt (ctBase + k) = some 0) ∧
      KeptOutside s.mem t.mem ctBase 32

/-! ### Frames -/

/-- FADD, FMUL, FEXP, FEXPM, FINV and VECMAT, completing with or without an error, change no byte outside E[RD], no
register but STATUS and ERRCMD, and not HZ (R49, R255). -/
def Obligations.ElementCommandFrame : Prop :=
  ∀ (i : Instr) (rd : ElemIx) (s t : State), elementDest i = some rd → exec i s = .next t →
    KeptOutside s.mem t.mem (elemBase rd.toNat) 32 ∧ SameControls s t ∧ t.status.hz = s.status.hz

/-- MATMAT, completing with or without an error, changes no byte outside entries 0 to d-1 of M[MD], no register but
STATUS and ERRCMD, and not HZ (R38, R49, R255). -/
def Obligations.MatmatFrame : Prop :=
  ∀ (md ms1 ms2 : MatIx) (s t : State), exec (.matmat md ms1 ms2) s = .next t →
    KeptOutside s.mem t.mem (entryBase md.toNat 0) (32 * s.fsel.degree) ∧ SameControls s t ∧
      t.status.hz = s.status.hz

/-- GENLAYER, completing with or without an error, changes no byte outside entries 0 to d-1 of M[0..s-1] and E[RD], no
register but STATUS and ERRCMD, and not HZ (R38, R201, R255). -/
def Obligations.GenlayerFrame : Prop :=
  ∀ (rd : ElemIx) (imm8 : BitVec 8) (s t : State), exec (.genlayer rd imm8) s = .next t →
    SameControls s t ∧ t.status.hz = s.status.hz ∧
    ∀ x, (∀ k, k < imm8.toNat → x < entryBase k 0 ∨ entryBase k 0 + 32 * s.fsel.degree ≤ x) →
      (x < elemBase rd.toNat ∨ elemBase rd.toNat + 32 ≤ x) → t.mem.byteAt x = s.mem.byteAt x

/-- EVAL changes no byte outside CT_BUF and NOP none at all; neither changes a register but STATUS and ERRCMD, nor HZ
(R140, R230). -/
def Obligations.EvalAndNopFrame : Prop :=
  (∀ s t : State, exec .eval s = .next t →
    KeptOutside s.mem t.mem ctBase 32 ∧ SameControls s t ∧ t.status.hz = s.status.hz) ∧
  (∀ s t : State, exec .nop s = .next t →
    (∀ x, t.mem.byteAt x = s.mem.byteAt x) ∧ SameControls s t ∧ t.status.hz = s.status.hz)

/-- A field result is below 2^d and all 256 bits of E[RD] are written with it, so bits 255..d are zero: for every
command with an element destination that completes with code OK (R34). -/
def Obligations.FieldResultIsZeroExtended : Prop :=
  ∀ (i : Instr) (rd : ElemIx) (s t : State),
    (elementDest i = some rd ∨ ∃ imm8, i = .genlayer rd imm8) → exec i s = .next t → t.status.ecode = 0 →
    ∃ r, r < 2 ^ s.fsel.degree ∧ t.mem.readBytes (elemBase rd.toNat) 32 = some (toBytes 32 r)

/-! ### Errors (spec/60_exceptions.md) -/

/-- A command that reads an element operand with a bit at or above d set completes with OperandRange, code 4: FADD and
FMUL (either operand), FEXP (the base, whatever the exponent), FEXPM, FINV, VECMAT (R33, R253). -/
def Obligations.ElementOutOfRange : Prop :=
  (∀ (s : State) (rd rs1 rs2 : ElemIx) (x y : Nat), s.mem.elem rs1 = some x → s.mem.elem rs2 = some y →
    (2 ^ s.fsel.degree ≤ x ∨ 2 ^ s.fsel.degree ≤ y →
      (∃ t, exec (.fadd rd rs1 rs2) s = .next t ∧ FailedWith 4 s t) ∧
      (∃ t, exec (.fmul rd rs1 rs2) s = .next t ∧ FailedWith 4 s t)) ∧
    (2 ^ s.fsel.degree ≤ x → ∃ t, exec (.fexp rd rs1 rs2) s = .next t ∧ FailedWith 4 s t)) ∧
  (∀ (s : State) (rd rs1 : ElemIx) (imm8 : BitVec 8) (x : Nat), s.mem.elem rs1 = some x →
    2 ^ s.fsel.degree ≤ x →
    (∃ t, exec (.fexpm rd rs1 imm8) s = .next t ∧ FailedWith 4 s t) ∧
    (∃ t, exec (.finv rd rs1) s = .next t ∧ FailedWith 4 s t)) ∧
  (∀ (s : State) (rd rs1 : ElemIx) (ms1 : MatIx) (x : Nat) (m : List Nat), s.mem.elem rs1 = some x →
    s.mem.matrix ms1.toNat s.fsel.degree = some m → 2 ^ s.fsel.degree ≤ x →
    ∃ t, exec (.vecmat rd rs1 ms1) s = .next t ∧ FailedWith 4 s t)

/-- A command that reads a matrix operand with an entry j < d at or above 2^d completes with OperandRange, code 4
(R37). -/
def Obligations.MatrixOutOfRange : Prop :=
  (∀ (s : State) (rd rs1 : ElemIx) (ms1 : MatIx) (v : Nat) (a : List Nat), s.mem.elem rs1 = some v →
    s.mem.matrix ms1.toNat s.fsel.degree = some a → (∃ x ∈ a, 2 ^ s.fsel.degree ≤ x) →
    ∃ t, exec (.vecmat rd rs1 ms1) s = .next t ∧ FailedWith 4 s t) ∧
  (∀ (s : State) (md ms1 ms2 : MatIx) (a b : List Nat), s.mem.matrix ms1.toNat s.fsel.degree = some a →
    s.mem.matrix ms2.toNat s.fsel.degree = some b → (∃ x ∈ a ++ b, 2 ^ s.fsel.degree ≤ x) →
    ∃ t, exec (.matmat md ms1 ms2) s = .next t ∧ FailedWith 4 s t)

/-- FINV of 0, and FEXP with exponent 0 and a valid base, complete with InvalidOperand, code 2 (R145, R149). -/
def Obligations.InvalidOperandCases : Prop :=
  (∀ (s : State) (rd rs1 : ElemIx), s.mem.elem rs1 = some 0 →
    ∃ t, exec (.finv rd rs1) s = .next t ∧ FailedWith 2 s t) ∧
  (∀ (s : State) (rd rs1 rs2 : ElemIx) (x : Nat), s.mem.elem rs1 = some x → x < 2 ^ s.fsel.degree →
    s.mem.elem rs2 = some 0 → ∃ t, exec (.fexp rd rs1 rs2) s = .next t ∧ FailedWith 2 s t)

/-- GENLAYER with IVLEN ≠ d/8, and EVAL with PTLEN not 16, 24 or 32 or IVLEN ≠ PTLEN, complete with InvalidInput,
code 1, whatever the buffers hold (R201, R230, R253). -/
def Obligations.InvalidInputCases : Prop :=
  (∀ (s : State) (rd : ElemIx) (imm8 : BitVec 8), s.ivlen.toNat ≠ s.fsel.bytes →
    ∃ t, exec (.genlayer rd imm8) s = .next t ∧ FailedWith 1 s t) ∧
  (∀ s : State, ((s.ptlen.toNat ≠ 16 ∧ s.ptlen.toNat ≠ 24 ∧ s.ptlen.toNat ≠ 32) ∨ s.ivlen ≠ s.ptlen) →
    ∃ t, exec .eval s = .next t ∧ FailedWith 1 s t)

/-- A command that reads an operand a byte of which is unwritten stops with the model fault UnwrittenRead (R35), also
where another operand is out of range: every operand is read before any is checked, as the pseudocode of R141, R143,
R145, R182 and R184 is written, which is log 9's reading. -/
def Obligations.UnwrittenOperandFaults : Prop :=
  (∀ (s : State) (rd rs1 rs2 : ElemIx),
    ((∃ k, k < 32 ∧ s.mem.byteAt (elemBase rs1.toNat + k) = none) ∨
      (∃ k, k < 32 ∧ s.mem.byteAt (elemBase rs2.toNat + k) = none)) →
    exec (.fadd rd rs1 rs2) s = .fault .unwrittenRead ∧ exec (.fmul rd rs1 rs2) s = .fault .unwrittenRead ∧
      exec (.fexp rd rs1 rs2) s = .fault .unwrittenRead) ∧
  (∀ (s : State) (rd rs1 : ElemIx) (imm8 : BitVec 8) (ms1 : MatIx),
    (∃ k, k < 32 ∧ s.mem.byteAt (elemBase rs1.toNat + k) = none) →
    exec (.fexpm rd rs1 imm8) s = .fault .unwrittenRead ∧ exec (.finv rd rs1) s = .fault .unwrittenRead ∧
      exec (.vecmat rd rs1 ms1) s = .fault .unwrittenRead) ∧
  (∀ (s : State) (md ms1 ms2 : MatIx) (rd rs1 : ElemIx),
    (∃ k, k < 32 * s.fsel.degree ∧ s.mem.byteAt (entryBase ms1.toNat 0 + k) = none) →
    exec (.vecmat rd rs1 ms1) s = .fault .unwrittenRead ∧ exec (.matmat md ms1 ms2) s = .fault .unwrittenRead ∧
      exec (.matmat md ms2 ms1) s = .fault .unwrittenRead) ∧
  (∀ (s : State) (rd : ElemIx) (imm8 : BitVec 8), s.ivlen.toNat = s.fsel.bytes →
    (∃ k, k < s.fsel.bytes ∧ s.mem.byteAt (ivBase + k) = none) →
    exec (.genlayer rd imm8) s = .fault .unwrittenRead) ∧
  (∀ (s : State) (f : FieldSel), s.ptlen.toNat = f.bytes → s.ivlen.toNat = f.bytes →
    (∃ k, k < f.bytes ∧ (s.mem.byteAt (ivBase + k) = none ∨ s.mem.byteAt (ptBase + k) = none)) →
    exec .eval s = .fault .unwrittenRead)

/-! ### The host port (spec/20_memory.md, spec/70_reset_and_hazards.md) -/

/-- An access outside the host contract is model fault HostAccess; one inside it never is (R71). -/
def Obligations.HostAccessFault : Prop :=
  ∀ (s : State) (a : PortAddr) (n : Nat) (v : Word),
    (¬ InContract a.toNat n → s.memRead a n = .error .hostAccess ∧ s.memWrite a n v = .error .hostAccess) ∧
    (InContract a.toNat n → s.memRead a n ≠ .error .hostAccess ∧ ∃ s', s.memWrite a n v = .ok s')

/-- While IDLE, what the host writes into IV_BUF, PT_BUF, E or M is stored little-endian and read back, and the write
changes nothing but those bytes; a read of written bytes of any storage, CT_BUF too, gives the value whose byte k stands
at a + k, and of unwritten ones is model fault UnwrittenRead; a read changes nothing (R35, R72, R77, R78). -/
def Obligations.WriteThenRead : Prop :=
  ∀ (s : State) (a : PortAddr) (n : Nat), s.rst = false → s.status.busy = false → InContract a.toNat n →
    (∀ v : Word,
      (0x0100 ≤ a.toNat ∧ a.toNat < 0x0140) ∨ (0x0200 ≤ a.toNat ∧ a.toNat < 0x0400) ∨ 0x8000 ≤ a.toNat →
      ∃ s', s.memWrite a n v = .ok s' ∧ s'.memRead a n = .ok (BitVec.ofNat 32 (v.toNat % 2 ^ (8 * n)), s') ∧
        KeptOutside s.mem s'.mem a.toNat n ∧ s' = { s with mem := s'.mem } ∧
        ∀ k, k < n → s'.mem.byteAt (a.toNat + k) = some (BitVec.ofNat 8 (v.toNat >>> (8 * k)))) ∧
    ((0x0100 ≤ a.toNat ∧ a.toNat < 0x0160) ∨ (0x0200 ≤ a.toNat ∧ a.toNat < 0x0400) ∨ 0x8000 ≤ a.toNat →
      (∀ w : Word, w.toNat < 2 ^ (8 * n) →
        (∀ k, k < n → s.mem.byteAt (a.toNat + k) = some (BitVec.ofNat 8 (w.toNat >>> (8 * k)))) →
        s.memRead a n = .ok (w, s)) ∧
      ((∃ k, k < n ∧ s.mem.byteAt (a.toNat + k) = none) → s.memRead a n = .error .unwrittenRead))

/-- The write hazard: while BUSY, a write to CMD, FSEL, IVLEN, PTLEN, IV_BUF, PT_BUF, E or M stores nothing and sets
HZ; a STATUS or CTRL write takes effect, and a write to ERRCMD, CT_BUF or a reserved address is ignored, whatever
BUSY is (R301). That a write of SEL = 3 to FSEL while BUSY sets HZ like any other is log 14's reading. -/
def Obligations.WriteHazard : Prop :=
  ∀ (s : State) (a : PortAddr) (n : Nat) (v : Word), s.rst = false → InContract a.toNat n →
    (s.status.busy = true → Protected a.toNat →
      s.memWrite a n v = .ok { s with status := { s.status with hz := true } }) ∧
    (a.toNat = 0x04 → s.memWrite a n v = .ok { s with status := { s.status with
      done := s.status.done && !v.getLsbD 1, err := s.status.err && !v.getLsbD 2,
      hz := s.status.hz && !v.getLsbD 3 } }) ∧
    (a.toNat = 0x08 → s.memWrite a n v = .ok { s with ie := v.getLsbD 0 }) ∧
    (a.toNat = 0x18 ∨ (0x1C ≤ a.toNat ∧ a.toNat < 0x0100) ∨ (0x0140 ≤ a.toNat ∧ a.toNat < 0x0200) ∨
      (0x0400 ≤ a.toNat ∧ a.toNat < 0x8000) → s.memWrite a n v = .ok s)

/-- The read hazard: while BUSY, a read of a buffer, of E or of M returns a draw and changes nothing the host can see.
Whatever BUSY is, a read of a control register gives its current value (R41 to R47), and a read of a reserved offset or
address gives 0 (R48, R73, R77, R302). That a draw is Config.draw applied to a count that it advances is the model's
choice (log 4). -/
def Obligations.ReadHazard : Prop :=
  ∀ (s : State) (a : PortAddr) (n : Nat), s.rst = false → InContract a.toNat n →
    (s.status.busy = true →
      (0x0100 ≤ a.toNat ∧ a.toNat < 0x0160) ∨ (0x0200 ≤ a.toNat ∧ a.toNat < 0x0400) ∨ 0x8000 ≤ a.toNat →
      s.memRead a n =
        .ok (BitVec.ofNat 32 ((Config.draw s.fresh).toNat % 2 ^ (8 * n)), { s with fresh := s.fresh + 1 })) ∧
    (a.toNat = 0x00 → s.memRead a n = .ok (s.cmd, s)) ∧
    (a.toNat = 0x04 → s.memRead a n = .ok (s.status.word, s)) ∧
    (a.toNat = 0x08 → s.memRead a n = .ok (if s.ie then 1 else 0, s)) ∧
    (a.toNat = 0x0C → s.memRead a n = .ok ((match s.fsel with | .gf128 => 0 | .gf192 => 1 | .gf256 => 2), s)) ∧
    (a.toNat = 0x10 → s.memRead a n = .ok (BitVec.ofNat 32 s.ivlen.toNat, s)) ∧
    (a.toNat = 0x14 → s.memRead a n = .ok (BitVec.ofNat 32 s.ptlen.toNat, s)) ∧
    (a.toNat = 0x18 → s.memRead a n = .ok (s.errcmd, s)) ∧
    ((0x1C ≤ a.toNat ∧ a.toNat < 0x0100) ∨ (0x0160 ≤ a.toNat ∧ a.toNat < 0x0200) ∨
      (0x0400 ≤ a.toNat ∧ a.toNat < 0x8000) → s.memRead a n = .ok (0, s))

/-- Offsets 0x1C to 0xFC: a read returns 0, a write is ignored and sets nothing, whatever BUSY is (R48). -/
def Obligations.ReservedControlOffsets : Prop :=
  ∀ (s : State) (a : PortAddr) (v : Word), s.rst = false → 0x1C ≤ a.toNat → a.toNat ≤ 0xFC → a.toNat % 4 = 0 →
    s.memRead a 4 = .ok (0, s) ∧ s.memWrite a 4 v = .ok s

/-- CTRL: bit 0 is IE, the rest reads zero and ignores writes; a write takes effect whatever BUSY is and is no
hazard; reset 0 (R43). -/
def Obligations.CtrlRegister : Prop :=
  (∀ (s : State) (v : Word), s.rst = false →
    s.memWrite 0x0008 4 v = .ok { s with ie := v.getLsbD 0 } ∧
    s.memRead 0x0008 4 = .ok (if s.ie then 1 else 0, s)) ∧ State.reset.ie = false

/-- FSEL stores SEL 0, 1, 2 and ignores 3; IVLEN and PTLEN store six bits; each reads back zero-extended; a write of any
of them while IDLE changes nothing else and raises nothing (R44, R45, R46). -/
def Obligations.ParameterRegisters : Prop :=
  ∀ (s : State) (v : Word), s.rst = false → s.status.busy = false →
    (v.toNat % 4 = 0 → s.memWrite 0x000C 4 v = .ok { s with fsel := .gf128 }) ∧
    (v.toNat % 4 = 1 → s.memWrite 0x000C 4 v = .ok { s with fsel := .gf192 }) ∧
    (v.toNat % 4 = 2 → s.memWrite 0x000C 4 v = .ok { s with fsel := .gf256 }) ∧
    (v.toNat % 4 = 3 → s.memWrite 0x000C 4 v = .ok s) ∧
    s.memRead 0x000C 4 = .ok ((match s.fsel with | .gf128 => 0 | .gf192 => 1 | .gf256 => 2), s) ∧
    s.memWrite 0x0010 4 v = .ok { s with ivlen := BitVec.ofNat 6 v.toNat } ∧
    s.memRead 0x0010 4 = .ok (BitVec.ofNat 32 s.ivlen.toNat, s) ∧
    s.memWrite 0x0014 4 v = .ok { s with ptlen := BitVec.ofNat 6 v.toNat } ∧
    s.memRead 0x0014 4 = .ok (BitVec.ofNat 32 s.ptlen.toNat, s)

/-- STATUS: the word read has BUSY, DONE, ERR, HZ, ECODE in their bits and zeros above; a write clears DONE, ERR and HZ
where it has a 1, leaves them where it has a 0, and touches nothing else, whatever BUSY is (R42). -/
def Obligations.StatusRegister : Prop :=
  ∀ (s : State) (v : Word), s.rst = false →
    (∃ w, s.memRead 0x0004 4 = .ok (w, s) ∧ w.getLsbD 0 = s.status.busy ∧ w.getLsbD 1 = s.status.done ∧
      w.getLsbD 2 = s.status.err ∧ w.getLsbD 3 = s.status.hz ∧ w.extractLsb' 4 4 = s.status.ecode ∧
      w.extractLsb' 8 24 = 0) ∧
    s.memWrite 0x0004 4 v = .ok { s with status := {
      busy := s.status.busy
      done := if v.getLsbD 1 then false else s.status.done
      err := if v.getLsbD 2 then false else s.status.err
      hz := if v.getLsbD 3 then false else s.status.hz
      ecode := s.status.ecode } }

/-- A host that makes no write to a protected location while BUSY never sees HZ set (R301, R303). -/
def Obligations.NoHazardUnderObligations : Prop :=
  ∀ s t : State, s.status.hz = false →
    (s.status.busy = true → ∀ a n v rest, s.host = .write a n v :: rest → ¬ Protected a.toNat) →
    step s = .next t → t.status.hz = false

/-- Every host write but one to CMD is idempotent: making it twice leaves what making it once leaves (R81). -/
def Obligations.WritesAreIdempotent : Prop :=
  ∀ (s s' : State) (a : PortAddr) (n : Nat) (v : Word), a ≠ 0 → s.memWrite a n v = .ok s' →
    s'.memWrite a n v = .ok s'

/-- The serialisation laws, and the element window: writing to_bytes_d(x) and zeros above it into E[r] reads back the
string, and E[r] holds x (R87, R21). -/
def Obligations.SerialisationRoundTrip : Prop :=
  (∀ (f : FieldSel) (x : Nat), x < 2 ^ f.degree → fromBytes (toBytes f.bytes x) = x) ∧
  (∀ (f : FieldSel) (b : List Byte), b.length = f.bytes → toBytes f.bytes (fromBytes b) = b) ∧
  (∀ (f : FieldSel) (m : Memory) (r : ElemIx) (x : Nat), x < 2 ^ f.degree →
    (((m.write (elemBase r.toNat) (toBytes f.bytes x)).write (elemBase r.toNat + f.bytes)
      (List.replicate (32 - f.bytes) 0)).readBytes (elemBase r.toNat) f.bytes = some (toBytes f.bytes x)) ∧
    (((m.write (elemBase r.toNat) (toBytes f.bytes x)).write (elemBase r.toNat + f.bytes)
      (List.replicate (32 - f.bytes) 0)).elem r = some x))

/-! ### The field functions (spec/40_field.md) -/

/-- gf_mul_d(x, y) is the product of the polynomials x and y modulo f_d: it is below 2^d and differs from the
carry-less product by a multiple of f_d (R142). -/
def Obligations.GfMulIsTheReducedProduct : Prop :=
  ∀ (f : FieldSel) (x y : Nat), x < 2 ^ f.degree → y < 2 ^ f.degree →
    gfMul f x y < 2 ^ f.degree ∧ ∃ q, carryless x y = carryless q f.poly ^^^ gfMul f x y

/-- gf_mul_d is commutative and associative, distributes over addition, and has 1 and 0 (R150). -/
def Obligations.GfMulLaws : Prop :=
  ∀ (f : FieldSel) (x y z : Nat), x < 2 ^ f.degree → y < 2 ^ f.degree → z < 2 ^ f.degree →
    gfMul f x y = gfMul f y x ∧ gfMul f x (gfMul f y z) = gfMul f (gfMul f x y) z ∧
    gfMul f x (y ^^^ z) = gfMul f x y ^^^ gfMul f x z ∧ gfMul f x 0 = 0 ∧ gfMul f x 1 = x

/-- gf_exp_d(x, e) for e ≥ 1 is x multiplied by itself e - 1 times (R144). -/
def Obligations.GfExpIsTheRepeatedProduct : Prop :=
  ∀ (f : FieldSel) (x e : Nat), x < 2 ^ f.degree → 1 ≤ e →
    gfExp f x e = (fun r => gfMul f r x)^[e - 1] x

/-- gf_inv_d(x) is the multiplicative inverse of a nonzero x (R148, R150). -/
def Obligations.GfInvIsTheInverse : Prop :=
  ∀ (f : FieldSel) (x : Nat), x < 2 ^ f.degree → x ≠ 0 → gfMul f x (gfInv f x) = 1

/-! ### Matrices and layers (spec/41_matrix.md, spec/42_layer.md, spec/43_owf.md) -/

/-- The matrix laws: linearity in the vector, associativity, the action law, the identity, and that the product does
not commute (R185). -/
def Obligations.MatrixLaws : Prop :=
  (∀ (f : FieldSel) (v w : Nat) (a b c : List Nat), v < 2 ^ f.degree → w < 2 ^ f.degree →
    a.length = f.degree → b.length = f.degree → c.length = f.degree →
    EntriesBelow f.degree a → EntriesBelow f.degree b → EntriesBelow f.degree c →
    vecMat (v ^^^ w) a = vecMat v a ^^^ vecMat w a ∧
    matMat (matMat a b) c = matMat a (matMat b c) ∧
    vecMat v (matMat a b) = vecMat (vecMat v a) b ∧
    vecMat v (identityMatrix f.degree) = v ∧ matMat (identityMatrix f.degree) b = b ∧
    matMat a (identityMatrix f.degree) = a) ∧
  (∀ f : FieldSel, ∃ a b : List Nat, a.length = f.degree ∧ b.length = f.degree ∧ EntriesBelow f.degree a ∧
    EntriesBelow f.degree b ∧ matMat a b ≠ matMat b a)

/-- The factors of a layer are unit triangular, and each of its matrices is invertible, whatever the XOF is (R209). -/
def Obligations.LayersAreInvertible : Prop :=
  (∀ (f : FieldSel) (xof : Nat → Byte) (pos i x : Nat), (lowerRows f xof f.degree 0 pos).1[i]? = some x →
    x < 2 ^ f.degree ∧ x.testBit i = true ∧ ∀ j, j < i → x.testBit j = false) ∧
  (∀ (f : FieldSel) (xof : Nat → Byte) (pos i x : Nat), (upperRows xof f.degree 0 pos).1[i]? = some x →
    x.testBit i = true ∧ ∀ j, i < j → x.testBit j = false) ∧
  (∀ (f : FieldSel) (xof : Nat → Byte) (s : Nat), ∀ a ∈ (generateLayer f xof s).1, Invertible f.degree a)

/-- The stream bytes of one call: 1072, 2376 or 4192 for the lower rows of a layer, as many for its upper rows, then d/8
for the constant, which is read behind the last layer; a call reads no byte beyond 2·s·(that number) + d/8, that is
4304, 9528 and 25184 for the three variants (R208). -/
def Obligations.LayerStreamBytes : Prop :=
  (∀ (f : FieldSel) (xof : Nat → Byte) (pos : Nat), (lowerRows f xof f.degree 0 pos).2 = pos + rowBytes f ∧
    (upperRows xof f.degree 0 pos).2 = pos + rowBytes f) ∧
  (∀ (f : FieldSel) (xof : Nat → Byte) (s : Nat), (layersFrom f xof s 0).2 = 2 * s * rowBytes f ∧
    (generateLayer f xof s).2 = fromBytes (readStream xof (2 * s * rowBytes f) f.bytes)) ∧
  (∀ (f : FieldSel) (xof xof' : Nat → Byte) (s : Nat),
    (∀ p, p < 2 * s * rowBytes f + f.bytes → xof p = xof' p) → generateLayer f xof s = generateLayer f xof' s) ∧
  (∀ xof xof' : Nat → Byte,
    ((∀ p, p < 4304 → xof p = xof' p) → generateLayer .gf128 xof 2 = generateLayer .gf128 xof' 2) ∧
    ((∀ p, p < 9528 → xof p = xof' p) → generateLayer .gf192 xof 2 = generateLayer .gf192 xof' 2) ∧
    ((∀ p, p < 25184 → xof p = xof' p) → generateLayer .gf256 xof 3 = generateLayer .gf256 xof' 3))

/-- A layer call bit by bit: each of its s matrices is U times L, the rows' bits at their places in the stream (R204,
R205, R206), and its constant is the d bits behind the last layer (R207). The first matrices of a longer call are those
of a shorter one on the same stream (R210). -/
def Obligations.LayersExtend : Prop :=
  (∀ (f : FieldSel) (xof : Nat → Byte) (s : Nat), (generateLayer f xof s).1.length = s ∧
    (∀ k a, (generateLayer f xof s).1[k]? = some a → IsLayerMatrix f xof k a) ∧
    ∀ j, (generateLayer f xof s).2.testBit j =
      (decide (j < f.degree) && streamBit xof (2 * s * rowBytes f) j)) ∧
  (∀ (f : FieldSel) (xof : Nat → Byte) (s1 s2 : Nat), s1 ≤ s2 →
    (generateLayer f xof s1).1 = (generateLayer f xof s2).1.take s1)

/-- EVAL depends on PTLEN, IVLEN and the first PTLEN bytes of PT_BUF and IV_BUF alone: two states that agree on them
complete with the same code, and with the same CT_BUF where it is OK, whatever FSEL, E and M hold (R230, R232). -/
def Obligations.EvalDependsOnItsInputs : Prop :=
  ∀ s s' t : State, s.ptlen = s'.ptlen → s.ivlen = s'.ivlen →
    (∀ k, k < s.ptlen.toNat → s.mem.byteAt (ptBase + k) = s'.mem.byteAt (ptBase + k) ∧
      s.mem.byteAt (ivBase + k) = s'.mem.byteAt (ivBase + k)) →
    exec .eval s = .next t →
    ∃ t', exec .eval s' = .next t' ∧ t'.status.ecode = t.status.ecode ∧
      (t.status.ecode = 0 → ∀ k, k < 32 → t'.mem.byteAt (ctBase + k) = t.mem.byteAt (ctBase + k))
end

