-- ==== Sys2Proof/Laws/Memory.lean ====
section
/-! SUPPORT. Storage: what a read gives after a write, byte by byte and range by range, and that every write
keeps the canonical form (spec R35, R73 to R78). -/

namespace Sys2Proof.Machine

open Sys2Proof

/-! ### One byte -/

@[simp] theorem Memory.byteAt_nil (a : Nat) : Memory.byteAt [] a = none := rfl

theorem Memory.byteAt_cons (x : Nat) (b : Byte) (m : Memory) (a : Nat) :
    Memory.byteAt ((x, b) :: m) a = if x = a then some b else m.byteAt a := rfl

theorem Memory.byteAt_append (m m' : Memory) (a : Nat) :
    Memory.byteAt (m ++ m') a = (m.byteAt a).or (m'.byteAt a) := by
  induction m with
  | nil => simp
  | cons c m ih =>
    obtain ⟨x, b⟩ := c
    rw [List.cons_append, Memory.byteAt_cons, Memory.byteAt_cons, ih]
    split <;> simp

theorem Memory.byteAt_filter (p : Nat → Bool) (m : Memory) (a : Nat) :
    Memory.byteAt (m.filter fun c => p c.1) a = if p a then m.byteAt a else none := by
  induction m with
  | nil => simp
  | cons c m ih =>
    obtain ⟨x, b⟩ := c
    by_cases hx : p x
    · rw [List.filter_cons_of_pos (by simpa using hx), Memory.byteAt_cons, Memory.byteAt_cons, ih]
      by_cases h : x = a
      · subst h; simp [hx]
      · simp [h]
    · rw [List.filter_cons_of_neg (by simpa using hx), Memory.byteAt_cons, ih]
      by_cases h : x = a
      · subst h; simp [hx]
      · simp [h]

theorem byteAt_cellsFrom (bs : List Byte) (a x : Nat) :
    Memory.byteAt (cellsFrom a bs) x = if a ≤ x then bs[x - a]? else none := by
  induction bs generalizing a with
  | nil => simp [cellsFrom]
  | cons b bs ih =>
    rw [cellsFrom, Memory.byteAt_cons, ih]
    by_cases h : a = x
    · subst h; simp
    · by_cases h' : a ≤ x
      · obtain ⟨k, rfl⟩ : ∃ k, x = a + 1 + k := ⟨x - (a + 1), by omega⟩
        rw [if_neg h, if_pos (by omega), if_pos h', show a + 1 + k - (a + 1) = k by omega,
          show a + 1 + k - a = k + 1 by omega, List.getElem?_cons_succ]
      · rw [if_neg h, if_neg (by omega), if_neg h']

/-- The law of storage: a write is read back inside its bytes and leaves every other byte alone. -/
theorem Memory.byteAt_write (m : Memory) (a : Nat) (bs : List Byte) (x : Nat) :
    (m.write a bs).byteAt x = if a ≤ x ∧ x < a + bs.length then bs[x - a]? else m.byteAt x := by
  unfold Memory.write
  rw [Memory.byteAt_append, Memory.byteAt_append, byteAt_cellsFrom,
    Memory.byteAt_filter (fun y => decide (y < a)), Memory.byteAt_filter (fun y => decide (a + bs.length ≤ y))]
  simp only [decide_eq_true_eq]
  by_cases h1 : a ≤ x
  · have h0 : ¬(x < a) := by omega
    by_cases h2 : x < a + bs.length
    · have h3 : x - a < bs.length := by omega
      simp [h0, h1, h2, h3]
    · have h4 : a + bs.length ≤ x := by omega
      have h5 : bs.length ≤ x - a := by omega
      simp [h0, h1, h2, h4, h5]
  · have h3 : x < a := by omega
    have h4 : ¬(a + bs.length ≤ x) := by omega
    simp [h1, h3, h4]

theorem Memory.byteAt_write_outside (m : Memory) (a : Nat) (bs : List Byte) (x : Nat)
    (h : x < a ∨ a + bs.length ≤ x) : (m.write a bs).byteAt x = m.byteAt x := by
  rw [Memory.byteAt_write, if_neg (by omega)]

/-! ### A range -/

theorem Memory.byteAt_slice (m : Memory) (a n x : Nat) :
    (m.slice a n).byteAt x = if a ≤ x ∧ x < a + n then m.byteAt x else none := by
  unfold Memory.slice
  rw [Memory.byteAt_filter (fun y => decide (a ≤ y) && decide (y < a + n))]
  by_cases h1 : a ≤ x <;> by_cases h2 : x < a + n <;> simp [h1, h2]

theorem Memory.collect_eq_some_iff (m : Memory) (n a : Nat) (bs : List Byte) :
    m.collect a n = some bs ↔ bs.length = n ∧ ∀ k, k < n → m.byteAt (a + k) = bs[k]? := by
  induction n generalizing a bs with
  | zero =>
    simp only [Memory.collect, Option.some.injEq, Nat.not_lt_zero, false_implies, implies_true, and_true]
    exact ⟨fun h => by simp [← h], fun h => (List.length_eq_zero_iff.mp h).symm⟩
  | succ n ih =>
    constructor
    · intro h
      rw [Memory.collect] at h
      split at h
      · next b bs' hb hbs =>
        obtain rfl := Option.some.inj h
        obtain ⟨hl, hk⟩ := (ih _ _).mp hbs
        refine ⟨by simp [hl], fun k hkn => ?_⟩
        cases k with
        | zero => simpa using hb
        | succ k =>
          rw [show a + (k + 1) = a + 1 + k by omega, hk k (by omega), List.getElem?_cons_succ]
      · cases h
    · rintro ⟨hl, hk⟩
      cases bs with
      | nil => simp at hl
      | cons b bs =>
        have hb : m.byteAt a = some b := by simpa using hk 0 (by omega)
        have hbs : m.collect (a + 1) n = some bs := by
          refine (ih _ _).mpr ⟨by simpa using hl, fun k hkn => ?_⟩
          rw [show a + 1 + k = a + (k + 1) by omega, hk (k + 1) (by omega), List.getElem?_cons_succ]
        simp [Memory.collect, hb, hbs]

/-- What a range read gives, said byte by byte. -/
theorem Memory.readBytes_eq_some_iff (m : Memory) (a n : Nat) (bs : List Byte) :
    m.readBytes a n = some bs ↔ bs.length = n ∧ ∀ k, k < n → m.byteAt (a + k) = bs[k]? := by
  unfold Memory.readBytes
  rw [Memory.collect_eq_some_iff]
  refine and_congr_right fun _ => forall_congr' fun k => imp_congr_right fun hk => ?_
  rw [Memory.byteAt_slice, if_pos (by omega)]

/-- Two storages that agree on a range read the same there. -/
theorem Memory.readBytes_congr (m m' : Memory) (a n : Nat)
    (h : ∀ k, k < n → m.byteAt (a + k) = m'.byteAt (a + k)) : m.readBytes a n = m'.readBytes a n := by
  apply Option.ext
  intro bs
  rw [Memory.readBytes_eq_some_iff, Memory.readBytes_eq_some_iff]
  exact and_congr_right fun _ => forall_congr' fun k => imp_congr_right fun hk => by rw [h k hk]

theorem Memory.readBytes_write_same (m : Memory) (a : Nat) (bs : List Byte) :
    (m.write a bs).readBytes a bs.length = some bs := by
  rw [Memory.readBytes_eq_some_iff]
  refine ⟨rfl, fun k hk => ?_⟩
  rw [Memory.byteAt_write, if_pos (by omega), Nat.add_sub_cancel_left]

/-- A read of any part of what was just written. -/
theorem Memory.readBytes_write_inside (m : Memory) (a i n : Nat) (bs : List Byte) (h : i + n ≤ bs.length) :
    (m.write a bs).readBytes (a + i) n = some ((bs.drop i).take n) := by
  rw [Memory.readBytes_eq_some_iff]
  refine ⟨by simp; omega, fun k hk => ?_⟩
  rw [Memory.byteAt_write, if_pos (by omega), show a + i + k - a = i + k by omega,
    List.getElem?_take_of_lt hk, List.getElem?_drop]

theorem Memory.readBytes_write_outside (m : Memory) (a x n : Nat) (bs : List Byte)
    (h : x + n ≤ a ∨ a + bs.length ≤ x) : (m.write a bs).readBytes x n = m.readBytes x n :=
  Memory.readBytes_congr _ _ _ _ fun k hk => Memory.byteAt_write_outside m a bs (x + k) (by omega)

/-! ### The canonical form -/

theorem Memory.rising_iff (m : Memory) : m.rising = true ↔ m.Pairwise fun c c' => c.1 < c'.1 := by
  induction m with
  | nil => simp [Memory.rising]
  | cons c m ih =>
    cases m with
    | nil => simp [Memory.rising]
    | cons c' m =>
      rw [Memory.rising, Bool.and_eq_true, ih, decide_eq_true_eq, List.pairwise_cons (l := c' :: m)]
      refine ⟨fun ⟨h1, h2⟩ => ⟨?_, h2⟩, fun ⟨h1, h2⟩ => ⟨h1 c' (by simp), h2⟩⟩
      intro d hd
      rcases List.mem_cons.mp hd with rfl | hd
      · exact h1
      · exact lt_trans h1 ((List.pairwise_cons.mp h2).1 d hd)

theorem mem_cellsFrom (bs : List Byte) (a : Nat) (c : Host.Cell) (h : c ∈ cellsFrom a bs) :
    a ≤ c.1 ∧ c.1 < a + bs.length := by
  induction bs generalizing a with
  | nil => simp [cellsFrom] at h
  | cons b bs ih =>
    rcases List.mem_cons.mp h with rfl | h
    · simp
    · have := ih _ h
      simp only [List.length_cons]
      omega

theorem rising_cellsFrom (bs : List Byte) (a : Nat) :
    (cellsFrom a bs).Pairwise fun c c' => c.1 < c'.1 := by
  induction bs generalizing a with
  | nil => exact List.Pairwise.nil
  | cons b bs ih => exact List.Pairwise.cons (fun c hc => by have := mem_cellsFrom _ _ _ hc; simp only; omega) (ih _)

/-- A write keeps the addresses rising. -/
theorem Memory.rising_write (m : Memory) (a : Nat) (bs : List Byte) (h : m.rising = true) :
    (m.write a bs).rising = true := by
  rw [Memory.rising_iff] at h ⊢
  unfold Memory.write
  rw [List.pairwise_append, List.pairwise_append]
  refine ⟨⟨h.filter _, rising_cellsFrom _ _, ?_⟩, h.filter _, ?_⟩
  · intro c hc c' hc'
    have h1 := (List.mem_filter.mp hc).2
    have h2 := mem_cellsFrom _ _ _ hc'
    simp only [decide_eq_true_eq] at h1
    omega
  · intro c hc c' hc'
    have h2 := (List.mem_filter.mp hc').2
    simp only [decide_eq_true_eq] at h2
    rcases List.mem_append.mp hc with hc | hc
    · have h1 := (List.mem_filter.mp hc).2
      simp only [decide_eq_true_eq] at h1
      omega
    · have h1 := mem_cellsFrom _ _ _ hc
      omega

theorem mem_write (m : Memory) (a : Nat) (bs : List Byte) (c : Host.Cell) (h : c ∈ m.write a bs) :
    c ∈ m ∨ a ≤ c.1 ∧ c.1 < a + bs.length := by
  unfold Memory.write at h
  rcases List.mem_append.mp h with h | h
  · rcases List.mem_append.mp h with h | h
    · exact .inl (List.mem_filter.mp h).1
    · exact .inr (mem_cellsFrom _ _ _ h)
  · exact .inl (List.mem_filter.mp h).1

/-- Every write inside the storage windows keeps the canonical form. -/
theorem Memory.wf_write (m : Memory) (a : Nat) (bs : List Byte) (h : m.wf = true)
    (hs : ∀ x, a ≤ x → x < a + bs.length → isStorage x = true) : (m.write a bs).wf = true := by
  unfold Memory.wf at h ⊢
  rw [Bool.and_eq_true, List.all_eq_true] at h ⊢
  refine ⟨Memory.rising_write m a bs h.1, fun c hc => ?_⟩
  rcases mem_write m a bs c hc with hc | ⟨h1, h2⟩
  · exact h.2 c hc
  · exact hs c.1 h1 h2

end Sys2Proof.Machine
end

