-- ==== Sys2Proof/Laws/Serial.lean ====
section
/-! SUPPORT. Serialisation (spec R21, R87): lengths, bounds, the two round trips; and the views E[r] and M[k]
of storage after a write (R34, R38, R75, R76). -/

namespace Sys2Proof.Machine

open Sys2Proof

@[simp] theorem toBytes_length (n x : Nat) : (toBytes n x).length = n := by
  induction n generalizing x with
  | zero => rfl
  | succ n ih => simp [toBytes, ih]

theorem fromBytes_lt (bs : List Byte) : fromBytes bs < 2 ^ (8 * bs.length) := by
  induction bs with
  | nil => simp [fromBytes]
  | cons b bs ih =>
    have hb := b.isLt
    rw [fromBytes, List.length_cons, Nat.mul_succ, Nat.pow_add]
    omega

/-- `from_bytes(to_bytes(x))` is x below the width (R87), and x modulo it in general. -/
theorem fromBytes_toBytes (n x : Nat) : fromBytes (toBytes n x) = x % 2 ^ (8 * n) := by
  induction n generalizing x with
  | zero => simp [toBytes, fromBytes, Nat.mod_one]
  | succ n ih =>
    rw [toBytes, fromBytes, ih, Nat.shiftRight_eq_div_pow, BitVec.toNat_ofNat,
      show 8 * (n + 1) = 8 + 8 * n by omega, Nat.pow_add 2 8, Nat.mod_mul]

theorem fromBytes_toBytes_of_lt (n x : Nat) (h : x < 2 ^ (8 * n)) : fromBytes (toBytes n x) = x := by
  rw [fromBytes_toBytes, Nat.mod_eq_of_lt h]

/-- Bit j of from_bytes(b) is bit j mod 8 of byte j / 8, 0 beyond the string (R21). -/
theorem testBit_fromBytes (bs : List Byte) (j : Nat) :
    (fromBytes bs).testBit j = (bs[j / 8]?.getD 0).getLsbD (j % 8) := by
  induction bs generalizing j with
  | nil => simp [fromBytes]
  | cons b bs ih =>
    rw [fromBytes, Nat.add_comm, Nat.testBit_two_pow_mul_add _ b.isLt]
    split
    · next h => rw [Nat.div_eq_of_lt h, Nat.mod_eq_of_lt h]; simp [BitVec.testBit_toNat]
    · next h =>
      rw [ih, show j / 8 = (j - 8) / 8 + 1 by omega, List.getElem?_cons_succ, show (j - 8) % 8 = j % 8 by omega]

/-- Byte k of to_bytes(x) is bits 8k+7..8k of x (R21). -/
theorem toBytes_getElem? (n x k : Nat) (h : k < n) : (toBytes n x)[k]? = some (BitVec.ofNat 8 (x >>> (8 * k))) := by
  induction n generalizing x k with
  | zero => omega
  | succ n ih =>
    cases k with
    | zero => simp [toBytes]
    | succ k =>
      rw [toBytes, List.getElem?_cons_succ, ih _ _ (by omega), ← Nat.shiftRight_add, Nat.mul_succ, Nat.add_comm 8]

/-- `to_bytes(from_bytes(b))` is b (R87). -/
theorem toBytes_fromBytes (bs : List Byte) : toBytes bs.length (fromBytes bs) = bs := by
  induction bs with
  | nil => rfl
  | cons b bs ih =>
    have hb := b.isLt
    have hdiv : (b.toNat + 2 ^ 8 * fromBytes bs) >>> 8 = fromBytes bs := by
      rw [Nat.shiftRight_eq_div_pow]; omega
    rw [List.length_cons, toBytes, fromBytes, hdiv, ih]
    congr 1
    apply BitVec.eq_of_toNat_eq
    rw [BitVec.toNat_ofNat]
    omega

/-- E[r] as it is read back from the register's 32 bytes. -/
theorem Memory.elem_setElem_same (m : Memory) (r : ElemIx) (x : Nat) :
    (m.setElem r x).elem r = some (x % 2 ^ 256) := by
  have h := Memory.readBytes_write_same m (elemBase r.toNat) (toBytes 32 x)
  rw [toBytes_length] at h
  rw [Memory.elem, Memory.setElem, h, Option.map_some, fromBytes_toBytes]

/-- A write anywhere outside E[r]'s 32 bytes leaves E[r]. -/
theorem Memory.elem_write_outside (m : Memory) (r : ElemIx) (a : Nat) (bs : List Byte)
    (h : elemBase r.toNat + 32 ≤ a ∨ a + bs.length ≤ elemBase r.toNat) :
    (m.write a bs).elem r = m.elem r := by
  rw [Memory.elem, Memory.elem, Memory.readBytes_write_outside _ _ _ _ _ h]

theorem Memory.elem_setElem_ne (m : Memory) (r r' : ElemIx) (x : Nat) (h : r ≠ r') :
    (m.setElem r x).elem r' = m.elem r' := by
  have hne : r.toNat ≠ r'.toNat := fun he => h (BitVec.eq_of_toNat_eq he)
  apply Memory.elem_write_outside
  rw [toBytes_length, elemBase, elemBase]
  omega

/-- The entries of a range depend on its bytes alone. -/
theorem Memory.entries_congr (m m' : Memory) (d a : Nat)
    (h : ∀ k, k < 32 * d → m.byteAt (a + k) = m'.byteAt (a + k)) : m.entries a d = m'.entries a d := by
  induction d generalizing a with
  | zero => rfl
  | succ d ih =>
    have h1 : m.readBytes a 32 = m'.readBytes a 32 :=
      Memory.readBytes_congr _ _ _ _ fun k hk => h k (by omega)
    have h2 : m.entries (a + 32) d = m'.entries (a + 32) d :=
      ih (a + 32) fun k hk => by rw [show a + 32 + k = a + (32 + k) by omega]; exact h _ (by omega)
    rw [Memory.entries, Memory.entries, h1, h2]

/-- The slice that `matrix` takes first changes nothing. -/
theorem Memory.matrix_eq_entries (m : Memory) (k d : Nat) :
    m.matrix k d = m.entries (entryBase k 0) d := by
  apply Memory.entries_congr
  intro j hj
  rw [Memory.byteAt_slice, if_pos (by omega)]

/-- What a matrix read gives, said entry by entry. -/
theorem Memory.entries_eq_some_iff (m : Memory) (d a : Nat) (xs : List Nat) :
    m.entries a d = some xs ↔
      xs.length = d ∧ ∀ j, j < d → (m.readBytes (a + 32 * j) 32).map fromBytes = xs[j]? := by
  induction d generalizing a xs with
  | zero =>
    simp only [Memory.entries, Option.some.injEq, Nat.not_lt_zero, false_implies, implies_true, and_true]
    exact ⟨fun h => by simp [← h], fun h => (List.length_eq_zero_iff.mp h).symm⟩
  | succ d ih =>
    constructor
    · intro h
      rw [Memory.entries] at h
      split at h
      · next bs xs' hb hx =>
        obtain rfl := Option.some.inj h
        obtain ⟨hl, hj⟩ := (ih _ _).mp hx
        refine ⟨by simp [hl], fun j hjd => ?_⟩
        cases j with
        | zero => simp [hb]
        | succ j => rw [show a + 32 * (j + 1) = a + 32 + 32 * j by omega, hj j (by omega), List.getElem?_cons_succ]
      · cases h
    · rintro ⟨hl, hj⟩
      cases xs with
      | nil => simp at hl
      | cons x xs =>
        have hx : m.entries (a + 32) d = some xs := by
          refine (ih _ _).mpr ⟨by simpa using hl, fun j hjd => ?_⟩
          rw [show a + 32 + 32 * j = a + 32 * (j + 1) by omega, hj (j + 1) (by omega), List.getElem?_cons_succ]
        have hb := hj 0 (by omega)
        rw [Nat.mul_zero, Nat.add_zero, List.getElem?_cons_zero, Option.map_eq_some_iff] at hb
        obtain ⟨bs, hb, rfl⟩ := hb
        simp [Memory.entries, hb, hx]

/-- Reading back the entries that one write laid side by side. -/
theorem Memory.entries_of_bytes (m : Memory) (a : Nat) (xs : List Nat)
    (h : m.readBytes a (32 * xs.length) = some (xs.flatMap (toBytes 32))) :
    m.entries a xs.length = some (xs.map (· % 2 ^ 256)) := by
  induction xs generalizing a with
  | nil => rfl
  | cons x xs ih =>
    obtain ⟨-, hk⟩ := (Memory.readBytes_eq_some_iff _ _ _ _).mp h
    simp only [List.flatMap_cons, List.length_cons] at hk
    have h1 : m.readBytes a 32 = some (toBytes 32 x) := by
      refine (Memory.readBytes_eq_some_iff _ _ _ _).mpr ⟨toBytes_length _ _, fun k hk' => ?_⟩
      rw [hk k (by omega), List.getElem?_append_left (by simpa using hk')]
    have h2 : m.readBytes (a + 32) (32 * xs.length) = some (xs.flatMap (toBytes 32)) := by
      refine (Memory.readBytes_eq_some_iff _ _ _ _).mpr ⟨?_, fun k hk' => ?_⟩
      · simp [List.length_flatMap, Nat.mul_comm]
      · rw [show a + 32 + k = a + (32 + k) by omega, hk (32 + k) (by omega),
          List.getElem?_append_right (by simp), toBytes_length, Nat.add_sub_cancel_left]
    rw [List.length_cons, Memory.entries, h1, ih _ h2]
    simp [fromBytes_toBytes]

theorem flatMap_toBytes_length (xs : List Nat) : (xs.flatMap (toBytes 32)).length = 32 * xs.length := by
  simp [List.length_flatMap, Nat.mul_comm]

/-- M[k] as it is read back after all its d entries were written. -/
theorem Memory.matrix_setMatrix_same (m : Memory) (k : Nat) (xs : List Nat) :
    (m.setMatrix k xs).matrix k xs.length = some (xs.map (· % 2 ^ 256)) := by
  rw [Memory.matrix_eq_entries]
  apply Memory.entries_of_bytes
  rw [← flatMap_toBytes_length]
  exact Memory.readBytes_write_same _ _ _

/-- A write anywhere outside M[k]'s d entries leaves them. -/
theorem Memory.matrix_write_outside (m : Memory) (k d a : Nat) (bs : List Byte)
    (h : entryBase k 0 + 32 * d ≤ a ∨ a + bs.length ≤ entryBase k 0) :
    (m.write a bs).matrix k d = m.matrix k d := by
  rw [Memory.matrix_eq_entries, Memory.matrix_eq_entries]
  exact Memory.entries_congr _ _ _ _ fun j hj => Memory.byteAt_write_outside _ _ _ _ (by omega)

end Sys2Proof.Machine
end

