-- ==== Sys2Proof/Laws/State.lean ====
section
/-! SUPPORT. What each update of the state leaves in each field: one lemma per field per update. -/

namespace Sys2Proof.Machine

open Sys2Proof

@[simp] theorem State.complete_mem (s : State) (c : ErrorCode) :
    (s.complete c).mem = s.mem := rfl
@[simp] theorem State.complete_cmd (s : State) (c : ErrorCode) :
    (s.complete c).cmd = s.cmd := rfl
@[simp] theorem State.complete_status (s : State) (c : ErrorCode) :
    (s.complete c).status = s.status.afterCompletion c := rfl
@[simp] theorem State.complete_ie (s : State) (c : ErrorCode) :
    (s.complete c).ie = s.ie := rfl
@[simp] theorem State.complete_fsel (s : State) (c : ErrorCode) :
    (s.complete c).fsel = s.fsel := rfl
@[simp] theorem State.complete_ivlen (s : State) (c : ErrorCode) :
    (s.complete c).ivlen = s.ivlen := rfl
@[simp] theorem State.complete_ptlen (s : State) (c : ErrorCode) :
    (s.complete c).ptlen = s.ptlen := rfl
@[simp] theorem State.complete_errcmd (s : State) (c : ErrorCode) :
    (s.complete c).errcmd = if c = .ok then s.errcmd else s.cmd := rfl
@[simp] theorem State.complete_rst (s : State) (c : ErrorCode) :
    (s.complete c).rst = s.rst := rfl
@[simp] theorem State.complete_remaining (s : State) (c : ErrorCode) :
    (s.complete c).remaining = 0 := rfl
@[simp] theorem State.complete_host (s : State) (c : ErrorCode) :
    (s.complete c).host = s.host := rfl
@[simp] theorem State.complete_reads (s : State) (c : ErrorCode) :
    (s.complete c).reads = s.reads := rfl
@[simp] theorem State.complete_fresh (s : State) (c : ErrorCode) :
    (s.complete c).fresh = s.fresh := rfl

@[simp] theorem State.issue_mem (s : State) (w : Word) (n : Nat) :
    (s.issue w n).mem = s.mem := rfl
@[simp] theorem State.issue_cmd (s : State) (w : Word) (n : Nat) :
    (s.issue w n).cmd = w := rfl
@[simp] theorem State.issue_status (s : State) (w : Word) (n : Nat) :
    (s.issue w n).status = s.status.afterIssue := rfl
@[simp] theorem State.issue_ie (s : State) (w : Word) (n : Nat) :
    (s.issue w n).ie = s.ie := rfl
@[simp] theorem State.issue_fsel (s : State) (w : Word) (n : Nat) :
    (s.issue w n).fsel = s.fsel := rfl
@[simp] theorem State.issue_ivlen (s : State) (w : Word) (n : Nat) :
    (s.issue w n).ivlen = s.ivlen := rfl
@[simp] theorem State.issue_ptlen (s : State) (w : Word) (n : Nat) :
    (s.issue w n).ptlen = s.ptlen := rfl
@[simp] theorem State.issue_errcmd (s : State) (w : Word) (n : Nat) :
    (s.issue w n).errcmd = s.errcmd := rfl
@[simp] theorem State.issue_rst (s : State) (w : Word) (n : Nat) :
    (s.issue w n).rst = s.rst := rfl
@[simp] theorem State.issue_remaining (s : State) (w : Word) (n : Nat) :
    (s.issue w n).remaining = n := rfl
@[simp] theorem State.issue_host (s : State) (w : Word) (n : Nat) :
    (s.issue w n).host = s.host := rfl
@[simp] theorem State.issue_reads (s : State) (w : Word) (n : Nat) :
    (s.issue w n).reads = s.reads := rfl
@[simp] theorem State.issue_fresh (s : State) (w : Word) (n : Nat) :
    (s.issue w n).fresh = s.fresh := rfl

@[simp] theorem State.hazard_mem (s : State) :
    (s.hazard).mem = s.mem := rfl
@[simp] theorem State.hazard_cmd (s : State) :
    (s.hazard).cmd = s.cmd := rfl
@[simp] theorem State.hazard_status (s : State) :
    (s.hazard).status = s.status.withHazard := rfl
@[simp] theorem State.hazard_ie (s : State) :
    (s.hazard).ie = s.ie := rfl
@[simp] theorem State.hazard_fsel (s : State) :
    (s.hazard).fsel = s.fsel := rfl
@[simp] theorem State.hazard_ivlen (s : State) :
    (s.hazard).ivlen = s.ivlen := rfl
@[simp] theorem State.hazard_ptlen (s : State) :
    (s.hazard).ptlen = s.ptlen := rfl
@[simp] theorem State.hazard_errcmd (s : State) :
    (s.hazard).errcmd = s.errcmd := rfl
@[simp] theorem State.hazard_rst (s : State) :
    (s.hazard).rst = s.rst := rfl
@[simp] theorem State.hazard_remaining (s : State) :
    (s.hazard).remaining = s.remaining := rfl
@[simp] theorem State.hazard_host (s : State) :
    (s.hazard).host = s.host := rfl
@[simp] theorem State.hazard_reads (s : State) :
    (s.hazard).reads = s.reads := rfl
@[simp] theorem State.hazard_fresh (s : State) :
    (s.hazard).fresh = s.fresh := rfl

@[simp] theorem State.afterDraw_mem (s : State) :
    (s.afterDraw).mem = s.mem := rfl
@[simp] theorem State.afterDraw_cmd (s : State) :
    (s.afterDraw).cmd = s.cmd := rfl
@[simp] theorem State.afterDraw_status (s : State) :
    (s.afterDraw).status = s.status := rfl
@[simp] theorem State.afterDraw_ie (s : State) :
    (s.afterDraw).ie = s.ie := rfl
@[simp] theorem State.afterDraw_fsel (s : State) :
    (s.afterDraw).fsel = s.fsel := rfl
@[simp] theorem State.afterDraw_ivlen (s : State) :
    (s.afterDraw).ivlen = s.ivlen := rfl
@[simp] theorem State.afterDraw_ptlen (s : State) :
    (s.afterDraw).ptlen = s.ptlen := rfl
@[simp] theorem State.afterDraw_errcmd (s : State) :
    (s.afterDraw).errcmd = s.errcmd := rfl
@[simp] theorem State.afterDraw_rst (s : State) :
    (s.afterDraw).rst = s.rst := rfl
@[simp] theorem State.afterDraw_remaining (s : State) :
    (s.afterDraw).remaining = s.remaining := rfl
@[simp] theorem State.afterDraw_host (s : State) :
    (s.afterDraw).host = s.host := rfl
@[simp] theorem State.afterDraw_reads (s : State) :
    (s.afterDraw).reads = s.reads := rfl
@[simp] theorem State.afterDraw_fresh (s : State) :
    (s.afterDraw).fresh = s.fresh + 1 := rfl

@[simp] theorem State.noted_mem (s : State) (v : Word) :
    (s.noted v).mem = s.mem := rfl
@[simp] theorem State.noted_cmd (s : State) (v : Word) :
    (s.noted v).cmd = s.cmd := rfl
@[simp] theorem State.noted_status (s : State) (v : Word) :
    (s.noted v).status = s.status := rfl
@[simp] theorem State.noted_ie (s : State) (v : Word) :
    (s.noted v).ie = s.ie := rfl
@[simp] theorem State.noted_fsel (s : State) (v : Word) :
    (s.noted v).fsel = s.fsel := rfl
@[simp] theorem State.noted_ivlen (s : State) (v : Word) :
    (s.noted v).ivlen = s.ivlen := rfl
@[simp] theorem State.noted_ptlen (s : State) (v : Word) :
    (s.noted v).ptlen = s.ptlen := rfl
@[simp] theorem State.noted_errcmd (s : State) (v : Word) :
    (s.noted v).errcmd = s.errcmd := rfl
@[simp] theorem State.noted_rst (s : State) (v : Word) :
    (s.noted v).rst = s.rst := rfl
@[simp] theorem State.noted_remaining (s : State) (v : Word) :
    (s.noted v).remaining = s.remaining := rfl
@[simp] theorem State.noted_host (s : State) (v : Word) :
    (s.noted v).host = s.host := rfl
@[simp] theorem State.noted_reads (s : State) (v : Word) :
    (s.noted v).reads = s.reads ++ [v] := rfl
@[simp] theorem State.noted_fresh (s : State) (v : Word) :
    (s.noted v).fresh = s.fresh := rfl

@[simp] theorem State.assertRst_mem (s : State) :
    (s.assertRst).mem = s.mem := rfl
@[simp] theorem State.assertRst_cmd (s : State) :
    (s.assertRst).cmd = s.cmd := rfl
@[simp] theorem State.assertRst_status (s : State) :
    (s.assertRst).status = s.status := rfl
@[simp] theorem State.assertRst_ie (s : State) :
    (s.assertRst).ie = s.ie := rfl
@[simp] theorem State.assertRst_fsel (s : State) :
    (s.assertRst).fsel = s.fsel := rfl
@[simp] theorem State.assertRst_ivlen (s : State) :
    (s.assertRst).ivlen = s.ivlen := rfl
@[simp] theorem State.assertRst_ptlen (s : State) :
    (s.assertRst).ptlen = s.ptlen := rfl
@[simp] theorem State.assertRst_errcmd (s : State) :
    (s.assertRst).errcmd = s.errcmd := rfl
@[simp] theorem State.assertRst_rst (s : State) :
    (s.assertRst).rst = true := rfl
@[simp] theorem State.assertRst_remaining (s : State) :
    (s.assertRst).remaining = s.remaining := rfl
@[simp] theorem State.assertRst_host (s : State) :
    (s.assertRst).host = s.host := rfl
@[simp] theorem State.assertRst_reads (s : State) :
    (s.assertRst).reads = s.reads := rfl
@[simp] theorem State.assertRst_fresh (s : State) :
    (s.assertRst).fresh = s.fresh := rfl

@[simp] theorem State.withCommandDue_mem (s : State) (w : Word) :
    (s.withCommandDue w).mem = s.mem := rfl
@[simp] theorem State.withCommandDue_cmd (s : State) (w : Word) :
    (s.withCommandDue w).cmd = w := rfl
@[simp] theorem State.withCommandDue_status (s : State) (w : Word) :
    (s.withCommandDue w).status = s.status.afterIssue := rfl
@[simp] theorem State.withCommandDue_ie (s : State) (w : Word) :
    (s.withCommandDue w).ie = s.ie := rfl
@[simp] theorem State.withCommandDue_fsel (s : State) (w : Word) :
    (s.withCommandDue w).fsel = s.fsel := rfl
@[simp] theorem State.withCommandDue_ivlen (s : State) (w : Word) :
    (s.withCommandDue w).ivlen = s.ivlen := rfl
@[simp] theorem State.withCommandDue_ptlen (s : State) (w : Word) :
    (s.withCommandDue w).ptlen = s.ptlen := rfl
@[simp] theorem State.withCommandDue_errcmd (s : State) (w : Word) :
    (s.withCommandDue w).errcmd = s.errcmd := rfl
@[simp] theorem State.withCommandDue_rst (s : State) (w : Word) :
    (s.withCommandDue w).rst = false := rfl
@[simp] theorem State.withCommandDue_remaining (s : State) (w : Word) :
    (s.withCommandDue w).remaining = 0 := rfl
@[simp] theorem State.withCommandDue_host (s : State) (w : Word) :
    (s.withCommandDue w).host = s.host := rfl
@[simp] theorem State.withCommandDue_reads (s : State) (w : Word) :
    (s.withCommandDue w).reads = s.reads := rfl
@[simp] theorem State.withCommandDue_fresh (s : State) (w : Word) :
    (s.withCommandDue w).fresh = s.fresh := rfl

@[simp] theorem Status.afterIssue_busy (t : Status) :
    (t.afterIssue).busy = true := rfl
@[simp] theorem Status.afterIssue_done (t : Status) :
    (t.afterIssue).done = false := rfl
@[simp] theorem Status.afterIssue_err (t : Status) :
    (t.afterIssue).err = t.err := rfl
@[simp] theorem Status.afterIssue_hz (t : Status) :
    (t.afterIssue).hz = t.hz := rfl
@[simp] theorem Status.afterIssue_ecode (t : Status) :
    (t.afterIssue).ecode = t.ecode := rfl

@[simp] theorem Status.afterCompletion_busy (t : Status) (c : ErrorCode) :
    (t.afterCompletion c).busy = false := rfl
@[simp] theorem Status.afterCompletion_done (t : Status) (c : ErrorCode) :
    (t.afterCompletion c).done = true := rfl
@[simp] theorem Status.afterCompletion_err (t : Status) (c : ErrorCode) :
    (t.afterCompletion c).err = (t.err || c != .ok) := rfl
@[simp] theorem Status.afterCompletion_hz (t : Status) (c : ErrorCode) :
    (t.afterCompletion c).hz = t.hz := rfl
@[simp] theorem Status.afterCompletion_ecode (t : Status) (c : ErrorCode) :
    (t.afterCompletion c).ecode = c.bits := rfl

@[simp] theorem Status.clearOnes_busy (t : Status) (v : Word) :
    (t.clearOnes v).busy = t.busy := rfl
@[simp] theorem Status.clearOnes_done (t : Status) (v : Word) :
    (t.clearOnes v).done = (t.done && !v.getLsbD 1) := rfl
@[simp] theorem Status.clearOnes_err (t : Status) (v : Word) :
    (t.clearOnes v).err = (t.err && !v.getLsbD 2) := rfl
@[simp] theorem Status.clearOnes_hz (t : Status) (v : Word) :
    (t.clearOnes v).hz = (t.hz && !v.getLsbD 3) := rfl
@[simp] theorem Status.clearOnes_ecode (t : Status) (v : Word) :
    (t.clearOnes v).ecode = t.ecode := rfl

@[simp] theorem Status.withHazard_busy (t : Status) :
    (t.withHazard).busy = t.busy := rfl
@[simp] theorem Status.withHazard_done (t : Status) :
    (t.withHazard).done = t.done := rfl
@[simp] theorem Status.withHazard_err (t : Status) :
    (t.withHazard).err = t.err := rfl
@[simp] theorem Status.withHazard_hz (t : Status) :
    (t.withHazard).hz = true := rfl
@[simp] theorem Status.withHazard_ecode (t : Status) :
    (t.withHazard).ecode = t.ecode := rfl

end Sys2Proof.Machine
end

