-- ==== Sys2Proof/Laws/Commands.lean ====
section
/-! SUPPORT. What a command can do: how a body ends (spec R20, R254), what the completion step makes of it, and
for each command what its body needs to succeed and what it then stores. -/

namespace Sys2Proof.Machine

open Sys2Proof

/-! ### Bodies -/

@[simp] theorem ok_bind {α β : Type} (a : α) (f : α → Except Stop β) : (Except.ok a >>= f) = f a := rfl
@[simp] theorem error_bind {α β : Type} (e : Stop) (f : α → Except Stop β) :
    (Except.error e >>= f) = Except.error e := rfl
@[simp] theorem pure_eq_ok {α : Type} (a : α) : (pure a : Except Stop α) = .ok a := rfl
@[simp] theorem fetched_some {α : Type} (a : α) : fetched (some a) = .ok a := rfl
@[simp] theorem fetched_none {α : Type} : fetched (none : Option α) = .error (.fault .unwrittenRead) := rfl
@[simp] theorem require_true (c : ErrorCode) : require true c = .ok () := rfl
@[simp] theorem require_false (c : ErrorCode) : require false c = .error (.raise c) := rfl

theorem bind_eq_ok_iff {α β : Type} (x : Except Stop α) (f : α → Except Stop β) (r : β) :
    (x >>= f) = .ok r ↔ ∃ a, x = .ok a ∧ f a = .ok r := by
  cases x <;> simp

theorem fetched_eq_ok_iff {α : Type} (o : Option α) (a : α) : fetched o = .ok a ↔ o = some a := by
  cases o <;> simp

theorem require_eq_ok_iff (b : Bool) (c : ErrorCode) (u : Unit) : require b c = .ok u ↔ b = true := by
  cases b <;> simp

/-- A bind raises where its first part raises, or its rest does after it. -/
theorem bind_eq_raise {α β : Type} (x : Except Stop α) (f : α → Except Stop β) (e : Stop)
    (h : (x >>= f) = .error e) : x = .error e ∨ ∃ a, x = .ok a ∧ f a = .error e := by
  cases x with
  | error e' => exact .inl (by simpa using h)
  | ok a => exact .inr ⟨a, rfl, h⟩

theorem fetched_raises_nothing {α : Type} (o : Option α) (c : ErrorCode) : fetched o ≠ .error (.raise c) := by
  cases o <;> simp

/-- Everything the completion step can answer with a next state. -/
theorem State.finish_eq_next_iff (s t : State) (body : Except Stop Memory) :
    s.finish body = .next t ↔
      (∃ m, body = .ok m ∧ t = State.complete { s with mem := m } .ok) ∨
      (∃ c, body = .error (.raise c) ∧ t = s.complete c) := by
  rcases body with (c | f) | m <;> simp [State.finish, eq_comm]

@[simp] theorem State.finish_ok (s : State) (m : Memory) :
    s.finish (.ok m) = .next (State.complete { s with mem := m } .ok) := rfl
@[simp] theorem State.finish_raise (s : State) (c : ErrorCode) :
    s.finish (.error (.raise c)) = .next (s.complete c) := rfl
@[simp] theorem State.finish_fault (s : State) (f : Fault) : s.finish (.error (.fault f)) = .fault f := rfl

/-! ### The commands -/

/-- The body of each command. -/
def bodyOf (i : Instr) (s : State) : Except Stop Memory :=
  match i with
  | .nop => nopBody s
  | .fadd rd rs1 rs2 => faddBody s rd rs1 rs2
  | .fmul rd rs1 rs2 => fmulBody s rd rs1 rs2
  | .fexp rd rs1 rs2 => fexpBody s rd rs1 rs2
  | .fexpm rd rs1 imm8 => fexpmBody s rd rs1 imm8
  | .finv rd rs1 => finvBody s rd rs1
  | .vecmat rd rs1 ms1 => vecmatBody s rd rs1 ms1
  | .matmat md ms1 ms2 => matmatBody s md ms1 ms2
  | .genlayer rd imm8 => genlayerBody s rd imm8
  | .eval => evalBody s

/-- Every command is the completion step around its body. -/
theorem exec_eq_finish (i : Instr) (s : State) : exec i s = s.finish (bodyOf i s) := by
  cases i <;> rfl

theorem faddBody_eq_ok (s : State) (rd rs1 rs2 : ElemIx) (m : Memory) (h : faddBody s rd rs1 rs2 = .ok m) :
    ∃ a b, s.mem.elem rs1 = some a ∧ s.mem.elem rs2 = some b ∧ validOperand s.fsel a = true ∧
      validOperand s.fsel b = true ∧ m = s.mem.setElem rd (gfAdd a b) := by
  simp only [faddBody, State.fetchElem, bind_eq_ok_iff, fetched_eq_ok_iff, require_eq_ok_iff, pure_eq_ok,
    Except.ok.injEq, Bool.and_eq_true] at h
  obtain ⟨a, ha, b, hb, -, ⟨hva, hvb⟩, rfl⟩ := h
  exact ⟨a, b, ha, hb, hva, hvb, rfl⟩

theorem fmulBody_eq_ok (s : State) (rd rs1 rs2 : ElemIx) (m : Memory) (h : fmulBody s rd rs1 rs2 = .ok m) :
    ∃ a b, s.mem.elem rs1 = some a ∧ s.mem.elem rs2 = some b ∧ validOperand s.fsel a = true ∧
      validOperand s.fsel b = true ∧ m = s.mem.setElem rd (gfMul s.fsel a b) := by
  simp only [fmulBody, State.fetchElem, bind_eq_ok_iff, fetched_eq_ok_iff, require_eq_ok_iff, pure_eq_ok,
    Except.ok.injEq, Bool.and_eq_true] at h
  obtain ⟨a, ha, b, hb, -, ⟨hva, hvb⟩, rfl⟩ := h
  exact ⟨a, b, ha, hb, hva, hvb, rfl⟩

theorem fexpBody_eq_ok (s : State) (rd rs1 rs2 : ElemIx) (m : Memory) (h : fexpBody s rd rs1 rs2 = .ok m) :
    ∃ x e, s.mem.elem rs1 = some x ∧ s.mem.elem rs2 = some e ∧ validOperand s.fsel x = true ∧
      e ≠ 0 ∧ m = s.mem.setElem rd (gfExp s.fsel x e) := by
  simp only [fexpBody, State.fetchElem, bind_eq_ok_iff, fetched_eq_ok_iff, require_eq_ok_iff, pure_eq_ok,
    Except.ok.injEq, bne_iff_ne] at h
  obtain ⟨x, hx, e, he, -, hv, -, h0, rfl⟩ := h
  exact ⟨x, e, hx, he, hv, h0, rfl⟩

theorem fexpmBody_eq_ok (s : State) (rd rs1 : ElemIx) (imm8 : BitVec 8) (m : Memory)
    (h : fexpmBody s rd rs1 imm8 = .ok m) :
    ∃ x, s.mem.elem rs1 = some x ∧ validOperand s.fsel x = true ∧
      m = s.mem.setElem rd (gfExp s.fsel x (powerMapExponent (imm8.toNat + 1))) := by
  simp only [fexpmBody, State.fetchElem, bind_eq_ok_iff, fetched_eq_ok_iff, require_eq_ok_iff, pure_eq_ok,
    Except.ok.injEq] at h
  obtain ⟨x, hx, -, hv, rfl⟩ := h
  exact ⟨x, hx, hv, rfl⟩

theorem finvBody_eq_ok (s : State) (rd rs1 : ElemIx) (m : Memory) (h : finvBody s rd rs1 = .ok m) :
    ∃ x, s.mem.elem rs1 = some x ∧ validOperand s.fsel x = true ∧ x ≠ 0 ∧
      m = s.mem.setElem rd (gfInv s.fsel x) := by
  simp only [finvBody, State.fetchElem, bind_eq_ok_iff, fetched_eq_ok_iff, require_eq_ok_iff, pure_eq_ok,
    Except.ok.injEq, bne_iff_ne] at h
  obtain ⟨x, hx, -, hv, -, h0, rfl⟩ := h
  exact ⟨x, hx, hv, h0, rfl⟩

theorem vecmatBody_eq_ok (s : State) (rd rs1 : ElemIx) (ms1 : MatIx) (m : Memory)
    (h : vecmatBody s rd rs1 ms1 = .ok m) :
    ∃ v a, s.mem.elem rs1 = some v ∧ s.mem.matrix ms1.toNat s.fsel.degree = some a ∧
      validOperand s.fsel v = true ∧ validMatrix s.fsel a = true ∧ m = s.mem.setElem rd (vecMat v a) := by
  simp only [vecmatBody, State.fetchElem, State.fetchMatrix, bind_eq_ok_iff, fetched_eq_ok_iff,
    require_eq_ok_iff, pure_eq_ok, Except.ok.injEq] at h
  obtain ⟨v, hv, a, ha, -, hvv, -, hva, rfl⟩ := h
  exact ⟨v, a, hv, ha, hvv, hva, rfl⟩

theorem matmatBody_eq_ok (s : State) (md ms1 ms2 : MatIx) (m : Memory) (h : matmatBody s md ms1 ms2 = .ok m) :
    ∃ a b, s.mem.matrix ms1.toNat s.fsel.degree = some a ∧ s.mem.matrix ms2.toNat s.fsel.degree = some b ∧
      validMatrix s.fsel a = true ∧ validMatrix s.fsel b = true ∧
      m = s.mem.setMatrix md.toNat (matMat a b) := by
  simp only [matmatBody, State.fetchMatrix, bind_eq_ok_iff, fetched_eq_ok_iff, require_eq_ok_iff, pure_eq_ok,
    Except.ok.injEq] at h
  obtain ⟨a, ha, b, hb, -, hva, -, hvb, rfl⟩ := h
  exact ⟨a, b, ha, hb, hva, hvb, rfl⟩

theorem genlayerBody_eq_ok (s : State) (rd : ElemIx) (imm8 : BitVec 8) (m : Memory)
    (h : genlayerBody s rd imm8 = .ok m) :
    ∃ iv, s.ivlen.toNat = s.fsel.bytes ∧ s.mem.readBytes ivBase s.fsel.bytes = some iv ∧
      m = (s.mem.setMatrices 0 (generateLayer s.fsel (xofStream iv) imm8.toNat).1).setElem rd
        (generateLayer s.fsel (xofStream iv) imm8.toNat).2 := by
  simp only [genlayerBody, State.fetchBuffer, bind_eq_ok_iff, fetched_eq_ok_iff, require_eq_ok_iff, pure_eq_ok,
    Except.ok.injEq, beq_iff_eq] at h
  obtain ⟨-, hl, iv, hiv, rfl⟩ := h
  exact ⟨iv, hl, hiv, rfl⟩

theorem evalBody_eq_ok (s : State) (m : Memory) (h : evalBody s = .ok m) :
    ∃ f pt iv, variantOfLength s.ptlen.toNat = some f ∧ s.ivlen.toNat = s.ptlen.toNat ∧
      s.mem.readBytes ptBase s.ptlen.toNat = some pt ∧ s.mem.readBytes ivBase s.ptlen.toNat = some iv ∧
      m = s.mem.write ctBase (aimEval f (xofStream iv) pt ++ List.replicate (32 - s.ptlen.toNat) 0) := by
  unfold evalBody at h
  split at h
  · cases h
  · next f hf =>
    simp only [State.fetchBuffer, bind_eq_ok_iff, fetched_eq_ok_iff, require_eq_ok_iff, pure_eq_ok,
      Except.ok.injEq, beq_iff_eq] at h
    obtain ⟨-, hl, pt, hpt, iv, hiv, rfl⟩ := h
    exact ⟨f, pt, iv, hf, hl, hpt, hiv, rfl⟩

/-- A body never raises the code OK (R20, R252). -/
theorem bodyOf_raise_ne_ok (i : Instr) (s : State) (c : ErrorCode) (h : bodyOf i s = .error (.raise c)) :
    c ≠ .ok := by
  have hreq : ∀ (b : Bool) (c' : ErrorCode), require b c' = .error (.raise c) → c' = c := by
    intro b c' hb
    cases b <;> simp_all
  cases i <;>
    simp only [bodyOf, nopBody, faddBody, fmulBody, fexpBody, fexpmBody, finvBody, vecmatBody, matmatBody,
      genlayerBody, evalBody, State.fetchElem, State.fetchMatrix, State.fetchBuffer] at h <;>
    (try split at h) <;>
    (repeat' first
      | (rcases bind_eq_raise _ _ _ h with h | ⟨_, _, h⟩)
      | (exact absurd h (fetched_raises_nothing _ _))
      | (have := hreq _ _ h; subst this; exact ErrorCode.noConfusion)
      | (cases h; done)
      | (injection h with h; injection h with h; subst h; exact ErrorCode.noConfusion))

end Sys2Proof.Machine
end

