-- ==== Sys2Proof/Laws/Field.lean ====
section
/-! SUPPORT. The loops of the field and matrix functions (spec R142, R144, R181): their bounds, one turn at a
time, and the facts about the fields' constants they rest on. -/

namespace Sys2Proof.Machine

open Sys2Proof

theorem degree_eq_eight_bytes (f : FieldSel) : f.degree = 8 * f.bytes := by cases f <;> rfl

theorem degree_le (f : FieldSel) : f.degree ≤ 256 := by cases f <;> decide

theorem degree_pos (f : FieldSel) : 128 ≤ f.degree := by cases f <;> decide

theorem poly_testBit_degree (f : FieldSel) : f.poly.testBit f.degree = true := by
  cases f <;> decide

theorem poly_lt (f : FieldSel) : f.poly < 2 ^ (f.degree + 1) := by
  rw [Nat.pow_succ]
  cases f <;> decide

/-- A number below 2^(d+1) whose bit d is clear is below 2^d. -/
theorem lt_of_testBit_false {x d : Nat} (h : x < 2 ^ (d + 1)) (hb : x.testBit d = false) : x < 2 ^ d := by
  apply Nat.lt_pow_two_of_testBit
  intro i hi
  rcases Nat.eq_or_lt_of_le hi with rfl | hlt
  · exact hb
  · exact Nat.testBit_lt_two_pow (lt_of_lt_of_le h (Nat.pow_le_pow_right (by omega) hlt))

/-- One shift with reduction stays in the field (R142). -/
theorem shiftReduce_lt (f : FieldSel) {a : Nat} (h : a < 2 ^ f.degree) :
    (if (a <<< 1).testBit f.degree then (a <<< 1) ^^^ f.poly else a <<< 1) < 2 ^ f.degree := by
  have h1 : a <<< 1 < 2 ^ (f.degree + 1) := by rw [Nat.shiftLeft_eq, Nat.pow_succ]; omega
  split
  · next hb =>
    apply lt_of_testBit_false (Nat.xor_lt_two_pow h1 (poly_lt f))
    rw [Nat.testBit_xor, hb, poly_testBit_degree]
    rfl
  · next hb => exact lt_of_testBit_false h1 (by simpa using hb)

theorem gfMulLoop_lt (f : FieldSel) (n : Nat) : ∀ {r a : Nat} (b : Nat), r < 2 ^ f.degree → a < 2 ^ f.degree →
    gfMulLoop f n r a b < 2 ^ f.degree := by
  induction n with
  | zero => intro r a b hr _; exact hr
  | succ n ih =>
    intro r a b hr ha
    rw [gfMulLoop]
    split
    · exact hr
    · refine ih _ ?_ (shiftReduce_lt f ha)
      split
      · exact Nat.xor_lt_two_pow hr ha
      · exact hr

/-- Once b is used up, further turns change nothing (R142). -/
theorem gfMulLoop_more (f : FieldSel) (n k : Nat) : ∀ (r a : Nat) {b : Nat}, b < 2 ^ n →
    gfMulLoop f (n + k) r a b = gfMulLoop f n r a b := by
  induction n with
  | zero =>
    intro r a b hb
    obtain rfl : b = 0 := by simpa using hb
    cases k <;> simp [gfMulLoop]
  | succ n ih =>
    intro r a b hb
    rw [show n + 1 + k = (n + k) + 1 by omega, gfMulLoop, gfMulLoop]
    split
    · rfl
    · apply ih
      rw [Nat.shiftRight_eq_div_pow, Nat.pow_one]
      rw [Nat.pow_succ] at hb
      omega

theorem gfExpLoop_lt (f : FieldSel) (x e n : Nat) : ∀ {r : Nat}, r < 2 ^ f.degree →
    gfExpLoop f x e n r < 2 ^ f.degree := by
  induction n with
  | zero => intro r hr; exact hr
  | succ n ih =>
    intro r hr
    rw [gfExpLoop]
    apply ih
    have hz : 0 < 2 ^ f.degree := Nat.two_pow_pos _
    split
    · exact gfMulLoop_lt f _ _ hz (gfMulLoop_lt f _ _ hz hr)
    · exact gfMulLoop_lt f _ _ hz hr

theorem vecMatFrom_lt (v : Nat) {d : Nat} (a : List Nat) (ha : ∀ x ∈ a, x < 2 ^ d) : ∀ (i : Nat) {r : Nat},
    r < 2 ^ d → vecMatFrom v i r a < 2 ^ d := by
  induction a with
  | nil => intro i r hr; exact hr
  | cons x a ih =>
    intro i r hr
    rw [vecMatFrom]
    apply ih fun y hy => ha y (List.mem_cons_of_mem _ hy)
    split
    · exact Nat.xor_lt_two_pow hr (ha x (by simp))
    · exact hr

/-- The running sum of R181 can be taken out. -/
theorem vecMatFrom_xor (v : Nat) (a : List Nat) : ∀ (i r : Nat),
    vecMatFrom v i r a = r ^^^ vecMatFrom v i 0 a := by
  induction a with
  | nil => intro i r; simp [vecMatFrom]
  | cons x a ih =>
    intro i r
    rw [vecMatFrom, vecMatFrom, ih, ih (i + 1) (if v.testBit i = true then 0 ^^^ x else 0)]
    split <;> simp [Nat.xor_assoc]

@[simp] theorem matMat_length (a b : List Nat) : (matMat a b).length = a.length := by simp [matMat]

@[simp] theorem lowerRows_length (f : FieldSel) (xof : Nat → Byte) (n i pos : Nat) :
    (lowerRows f xof n i pos).1.length = n := by
  induction n generalizing i pos with
  | zero => rfl
  | succ n ih => simp [lowerRows, ih]

@[simp] theorem upperRows_length (xof : Nat → Byte) (n i pos : Nat) :
    (upperRows xof n i pos).1.length = n := by
  induction n generalizing i pos with
  | zero => rfl
  | succ n ih => simp [upperRows, ih]

@[simp] theorem oneLayer_length (f : FieldSel) (xof : Nat → Byte) (pos : Nat) :
    (oneLayer f xof pos).1.length = f.degree := by simp [oneLayer]

theorem layersFrom_entries (f : FieldSel) (xof : Nat → Byte) (s pos : Nat) :
    ∀ a ∈ (layersFrom f xof s pos).1, a.length = f.degree := by
  induction s generalizing pos with
  | zero => simp [layersFrom]
  | succ s ih =>
    intro a ha
    rw [layersFrom] at ha
    rcases List.mem_cons.mp ha with rfl | ha
    · exact oneLayer_length f xof pos
    · exact ih _ a ha

@[simp] theorem layersFrom_length (f : FieldSel) (xof : Nat → Byte) (s pos : Nat) :
    (layersFrom f xof s pos).1.length = s := by
  induction s generalizing pos with
  | zero => rfl
  | succ s ih => simp [layersFrom, ih]

end Sys2Proof.Machine
end

