-- ==== Sys2Proof/Laws/HostPort.lean ====
section
/-! SUPPORT. What a host access can do (spec R77, R78, R301, R302, R290), and what a step can do (R300):
one inversion lemma each. -/

namespace Sys2Proof.Machine

open Sys2Proof

/-- A read leaves the state, or spends one fresh count on a draw (R77, R81). -/
theorem State.memRead_eq_ok (s s' : State) (a : PortAddr) (n : Nat) (v : Word)
    (h : s.memRead a n = .ok (v, s')) : s' = s ∨ s' = s.afterDraw ∧ v = s.drawn n := by
  unfold State.memRead at h
  split at h
  · cases h
  · split at h
    · cases h; exact .inr ⟨rfl, rfl⟩
    · split at h
      · cases h; exact .inl rfl
      · cases h; exact .inl rfl
      · split at h
        · cases h; exact .inr ⟨rfl, rfl⟩
        · split at h
          · cases h; exact .inl rfl
          · cases h

/-- A write is ignored, a hazard, a control-register write, or stores its bytes while IDLE (R78). -/
theorem State.memWrite_eq_ok (s s' : State) (a : PortAddr) (n : Nat) (v : Word)
    (h : s.memWrite a n v = .ok s') :
    s' = s ∨
    (s.rst = false ∧ s.status.busy = true ∧ s' = s.hazard) ∨
    (s.rst = false ∧ regionOf a.toNat = .control ∧ s' = s.writeControl a.toNat v) ∨
    (s.rst = false ∧ s.status.busy = false ∧ accessOk a.toNat n = true ∧
      (regionOf a.toNat = .inputBuffer ∨ regionOf a.toNat = .elements ∨ regionOf a.toNat = .matrices) ∧
      s' = { s with mem := s.mem.write a.toNat (toBytes n v.toNat) }) := by
  unfold State.memWrite at h
  split at h
  · cases h
  · next hok =>
    split at h
    · cases h; exact .inl rfl
    · next hr =>
      have hr' : s.rst = false := by simpa using hr
      split at h
      · next hreg => cases h; exact .inr (.inr (.inl ⟨hr', hreg, rfl⟩))
      · cases h; exact .inl rfl
      · cases h; exact .inl rfl
      · next h1 h2 h3 =>
        split at h
        · next hb => cases h; exact .inr (.inl ⟨hr', hb, rfl⟩)
        · next hb =>
          cases h
          refine .inr (.inr (.inr ⟨hr', by simpa using hb, by simpa using hok, ?_, rfl⟩))
          generalize regionOf a.toNat = r at h1 h2 h3
          cases r <;> simp_all

/-- The host contract as R71 states it. -/
theorem accessOk_iff (a n : Nat) : accessOk a n = true ↔ InContract a n := by
  simp only [accessOk, InContract, Bool.and_eq_true, Bool.or_eq_true, beq_iff_eq, decide_eq_true_eq]
  omega

theorem State.completionDue_iff (s : State) : s.completionDue = true ↔ Due s := by
  simp [State.completionDue, Due, and_assoc]

theorem State.tick_eq_cyclePassed (s : State) : s.tick = s.cyclePassed := by
  simp [State.tick, State.cyclePassed]

/-- A step is the completion where one is due (R251, R254). -/
theorem step_of_due (s : State) (h : s.completionDue = true) : step s = s.completion := by
  simp [step, State.cycle, h]

/-- A step is the host's turn where no completion is due (R300). -/
theorem step_of_not_due (s : State) (h : s.completionDue = false) : step s = s.tick.hostTurn := by
  simp [step, State.cycle, h]

theorem State.completion_of_command (s : State) (i : Instr) (h : decode s.cmd = .ok i) :
    s.completion = exec i s := by
  simp [State.completion, h]

theorem State.completion_of_illegal (s : State) (e : DecodeError) (h : decode s.cmd = .error e) :
    s.completion = .next (s.complete .illegalCommand) := by
  simp [State.completion, h]

/-- The host's turn: nothing pending, or one access performed (R80). -/
theorem State.hostTurn_eq_next_iff (s t : State) :
    s.hostTurn = .next t ↔
      (s.host = [] ∧ t = s) ∨ ∃ op rest, s.host = op :: rest ∧ s.perform op rest = .ok t := by
  unfold State.hostTurn
  split
  · next h => simp [h, eq_comm]
  · next op rest h =>
    cases hp : s.perform op rest with
    | ok t' =>
      simp only [Host.Outcome.next.injEq, h, List.cons.injEq, reduceCtorEq, false_and, false_or]
      exact ⟨fun ht => ⟨op, rest, ⟨rfl, rfl⟩, by rw [hp, ht]⟩, fun ⟨_, _, ⟨rfl, rfl⟩, ht⟩ => by
        rw [hp] at ht; exact Except.ok.inj ht⟩
    | error e =>
      simp only [reduceCtorEq, h, List.cons.injEq, false_and, false_or, false_iff]
      rintro ⟨_, _, ⟨rfl, rfl⟩, ht⟩
      rw [hp] at ht
      cases ht

/-- Everything one step of the host can do (R23, R77, R78, R113, R290). -/
theorem State.perform_eq_ok (s s' : State) (op : HostOp) (rest : List HostOp) (h : s.perform op rest = .ok s') :
    (∃ a n v r, op = .read a n ∧ s.memRead a n = .ok (v, r) ∧ s' = { r.noted v with host := rest }) ∨
    (∃ a n v r, op = .write a n v ∧ s.memWrite a n v = .ok r ∧ s' = { r with host := rest }) ∨
    (∃ v r, op = .wait ∧ s.memRead 0x0004 4 = .ok (v, r) ∧
      s' = { r.noted v with host := if v.getLsbD 0 then .wait :: rest else rest }) ∨
    (op = .waitIrq ∧ s' = { s with host := if s.irq then rest else .waitIrq :: rest }) ∨
    (op = .idle ∧ s' = { s with host := rest }) ∨
    (op = .assertReset ∧ s' = { s.assertRst with host := rest }) ∨
    (op = .releaseReset ∧ s' = { s.releaseRst with host := rest }) := by
  cases op with
  | read a n =>
    cases hm : s.memRead a n with
    | ok vr => exact .inl ⟨a, n, vr.1, vr.2, rfl, hm, by simpa [State.perform, hm, eq_comm] using h⟩
    | error f => simp [State.perform, hm] at h
  | write a n v =>
    cases hm : s.memWrite a n v with
    | ok r => exact .inr (.inl ⟨a, n, v, r, rfl, hm, by simpa [State.perform, hm, eq_comm] using h⟩)
    | error f => simp [State.perform, hm] at h
  | wait =>
    unfold State.perform at h
    dsimp only at h
    split at h
    · next v r hm => exact .inr (.inr (.inl ⟨v, r, rfl, hm, (Except.ok.inj h).symm⟩))
    · cases h
  | waitIrq => exact .inr (.inr (.inr (.inl ⟨rfl, (Except.ok.inj h).symm⟩)))
  | idle => exact .inr (.inr (.inr (.inr (.inl ⟨rfl, (Except.ok.inj h).symm⟩))))
  | assertReset => exact .inr (.inr (.inr (.inr (.inr (.inl ⟨rfl, (Except.ok.inj h).symm⟩)))))
  | releaseReset => exact .inr (.inr (.inr (.inr (.inr (.inr ⟨rfl, (Except.ok.inj h).symm⟩)))))

/-- What `tick` leaves: everything but the remaining latency. -/
theorem State.tick_eq (s : State) : ∃ n, n ≤ s.remaining ∧ s.tick = { s with remaining := n } := by
  unfold State.tick
  split
  · exact ⟨s.remaining - 1, by omega, rfl⟩
  · exact ⟨s.remaining, le_refl _, rfl⟩

end Sys2Proof.Machine
end

