-- ==== Sys2Proof/Laws/Layer.lean ====
section
/-! SUPPORT. The stream and the factor rows: the bits of a chunk (spec R21, R203), the bits of one row (R204, R205), and
which row stands at which place of a factor, read from which place of the stream (R206). -/

namespace Sys2Proof.Machine

open Sys2Proof

theorem testBit_mask (n j : Nat) : (mask n).testBit j = decide (j < n) := by
  simp [mask, Nat.testBit_two_pow_sub_one]

/-- Bit j of a chunk is bit j of the stream from its position on (R21, R203). -/
theorem testBit_readStream (xof : Nat → Byte) (pos n j : Nat) :
    (fromBytes (readStream xof pos n)).testBit j = (decide (j < 8 * n) && streamBit xof pos j) := by
  rw [testBit_fromBytes, readStream, List.getElem?_map]
  by_cases h : j < 8 * n
  · rw [List.getElem?_range (by omega)]
    simp [h, streamBit]
  · rw [List.getElem?_eq_none (by simp; omega)]
    simp [h]

/-- A chunk depends on its own stream bytes alone. -/
theorem readStream_congr {xof xof' : Nat → Byte} {bound pos n : Nat} (h : ∀ p, p < bound → xof p = xof' p)
    (hn : pos + n ≤ bound) : readStream xof pos n = readStream xof' pos n :=
  List.map_congr_left fun k hk => h _ (by have := List.mem_range.mp hk; omega)

theorem lowerRow_isLowerRow (f : FieldSel) (xof : Nat → Byte) (pos i : Nat) (hi : i < f.degree) :
    IsLowerRow f xof pos i (lowerRow f xof pos i) := by
  intro j
  have hd := degree_eq_eight_bytes f
  simp only [lowerRow, lowerLength, complementAt, Nat.testBit_or, Nat.testBit_and, Nat.testBit_xor,
    Nat.testBit_shiftLeft, testBit_readStream, testBit_mask, Nat.testBit_two_pow]
  rcases Nat.lt_trichotomy j i with h | rfl | h
  · simp [h, show ¬i < j by omega, show ¬j = i by omega, show ¬i = j by omega]
  · simp
  · by_cases h3 : j < f.degree
    · have hlow : 8 * (f.bytes - (f.degree - i + 6) / 8) ≤ j := by omega
      have hchunk : j - 8 * (f.bytes - (f.degree - i + 6) / 8) < 8 * ((f.degree - i + 6) / 8) := by omega
      simp [h, h3, hlow, hchunk, show ¬j < i by omega, show ¬j = i by omega, show ¬i = j by omega]
    · simp [h3, show ¬j = i by omega, show ¬i = j by omega]

theorem upperRow_isUpperRow (xof : Nat → Byte) (pos i : Nat) : IsUpperRow xof pos i (upperRow xof pos i) := by
  intro j
  simp only [upperRow, upperLength, Nat.testBit_or, Nat.testBit_and, testBit_readStream, testBit_mask,
    Nat.testBit_two_pow]
  rcases Nat.lt_trichotomy j i with h | rfl | h
  · simp [h, show j < 8 * ((i + 7) / 8) by omega, show ¬j = i by omega, show ¬i = j by omega]
  · simp
  · simp [show ¬j < i by omega, show ¬j = i by omega, show ¬i = j by omega]

/-- One row more at the end of a factor. -/
theorem rowOffset_succ (len : Nat → Nat) (i : Nat) : rowOffset len (i + 1) = rowOffset len i + len i := by
  simp [rowOffset, List.range_succ]

/-- One row more at the beginning. -/
theorem rowOffset_shift (len : Nat → Nat) (i n : Nat) :
    len i + rowOffset (fun m => len (i + 1 + m)) n = rowOffset (fun m => len (i + m)) (n + 1) := by
  induction n with
  | zero => simp [rowOffset]
  | succ n ih => rw [rowOffset_succ, ← Nat.add_assoc, ih, rowOffset_succ _ (n + 1), Nat.add_right_comm i 1 n, Nat.add_assoc i n 1]

/-- Row k of `n` lower rows, and where the stream stands behind them. -/
theorem lowerRows_rows (f : FieldSel) (xof : Nat → Byte) (n i pos : Nat) :
    (lowerRows f xof n i pos).2 = pos + rowOffset (fun m => lowerLength f.degree (i + m)) n ∧
    ∀ k, k < n → (lowerRows f xof n i pos).1[k]? =
      some (lowerRow f xof (pos + rowOffset (fun m => lowerLength f.degree (i + m)) k) (i + k)) := by
  induction n generalizing i pos with
  | zero => exact ⟨rfl, fun k hk => absurd hk (Nat.not_lt_zero k)⟩
  | succ n ih =>
    have ih := ih (i + 1) (pos + lowerLength f.degree i)
    refine ⟨?_, fun k hk => ?_⟩
    · rw [lowerRows]
      simp only [ih.1]
      rw [← rowOffset_shift, Nat.add_assoc]
    · rw [lowerRows]
      cases k with
      | zero => simp [rowOffset]
      | succ k =>
        rw [List.getElem?_cons_succ, ih.2 k (by omega), ← rowOffset_shift, ← Nat.add_assoc pos,
          Nat.add_right_comm i 1 k, Nat.add_assoc i k 1]

/-- Row k of `n` upper rows, and where the stream stands behind them. -/
theorem upperRows_rows (xof : Nat → Byte) (n i pos : Nat) :
    (upperRows xof n i pos).2 = pos + rowOffset (fun m => upperLength (i + m)) n ∧
    ∀ k, k < n → (upperRows xof n i pos).1[k]? =
      some (upperRow xof (pos + rowOffset (fun m => upperLength (i + m)) k) (i + k)) := by
  induction n generalizing i pos with
  | zero => exact ⟨rfl, fun k hk => absurd hk (Nat.not_lt_zero k)⟩
  | succ n ih =>
    have ih := ih (i + 1) (pos + upperLength i)
    refine ⟨?_, fun k hk => ?_⟩
    · rw [upperRows]
      simp only [ih.1]
      rw [← rowOffset_shift, Nat.add_assoc]
    · rw [upperRows]
      cases k with
      | zero => simp [rowOffset]
      | succ k =>
        rw [List.getElem?_cons_succ, ih.2 k (by omega), ← rowOffset_shift, ← Nat.add_assoc pos,
          Nat.add_right_comm i 1 k, Nat.add_assoc i k 1]

/-- The bytes of all the rows of a factor (R208). -/
theorem rowOffset_lower (f : FieldSel) : rowOffset (lowerLength f.degree) f.degree = rowBytes f := by
  cases f <;> decide +kernel

theorem rowOffset_upper (f : FieldSel) : rowOffset upperLength f.degree = rowBytes f := by
  cases f <;> decide +kernel

end Sys2Proof.Machine
end

