-- ==== Sys2Proof/Laws/PerInstr.lean ====
section
/-! SUPPORT. One statement per command, as syntax: a command's word is its row of the opcode map and no other
row (spec R105). -/

namespace Sys2Proof.Laws

open Sys2Proof

/-- The row number of a command in the opcode map, its opcode (R105). -/
def opcodeOf : Instr → Nat
  | .nop => 0
  | .fadd _ _ _ => 1
  | .fmul _ _ _ => 2
  | .fexp _ _ _ => 3
  | .fexpm _ _ _ => 4
  | .finv _ _ => 5
  | .vecmat _ _ _ => 6
  | .matmat _ _ _ => 7
  | .genlayer _ _ => 8
  | .eval => 9

/-- The command's word has its own opcode and matches its own row: every field it does not use is zero. -/
def MatchesItsRow.Statement (i : Instr) : Prop :=
  (fieldOp (encode i)).toNat = opcodeOf i ∧ matchesRow (opcodeOf i) (encode i) = true

theorem fieldOp_packFields (imm8 : BitVec 8) (ms2 ms1 md : MatIx) (rs2 rs1 rd : ElemIx) (op : BitVec 6) :
    fieldOp (packFields imm8 ms2 ms1 md rs2 rs1 rd op) = op := by
  apply BitVec.eq_of_getLsbD_eq
  intro i hi
  have h1 : i < 10 := by omega
  have h2 : i < 14 := by omega
  have h3 : i < 18 := by omega
  have h4 : i < 20 := by omega
  have h5 : i < 22 := by omega
  have h6 : i < 24 := by omega
  have h7 : i < 32 := by omega
  simp [fieldOp, packFields, hi, h1, h2, h3, h4, h5, h6, h7]

/-- Masking a packed word is masking its fields one by one. -/
theorem packFields_and (i1 i2 : BitVec 8) (a1 a2 b1 b2 c1 c2 : MatIx) (d1 d2 e1 e2 f1 f2 : ElemIx)
    (o1 o2 : BitVec 6) :
    packFields i1 a1 b1 c1 d1 e1 f1 o1 &&& packFields i2 a2 b2 c2 d2 e2 f2 o2 =
      packFields (i1 &&& i2) (a1 &&& a2) (b1 &&& b2) (c1 &&& c2) (d1 &&& d2) (e1 &&& e2) (f1 &&& f2)
        (o1 &&& o2) := by
  apply BitVec.eq_of_getLsbD_eq
  intro i hi
  simp only [packFields, BitVec.getLsbD_and, BitVec.getLsbD_or, BitVec.getLsbD_shiftLeft, BitVec.getLsbD_setWidth]
  interval_cases i <;> simp

theorem MatchesItsRow.nop : MatchesItsRow.Statement .nop := by
  unfold MatchesItsRow.Statement; decide

theorem MatchesItsRow.fadd (rd rs1 rs2 : ElemIx) : MatchesItsRow.Statement (.fadd rd rs1 rs2) := by
  refine ⟨by simp [encode, fieldOp_packFields, opcodeOf], ?_⟩
  have hm : (0xFFFC003F#32) = packFields 255 3 3 3 0 0 0 63 := by decide
  simp only [matchesRow, opcodeOf, opcodeMap, encode, List.getElem?_cons_succ, List.getElem?_cons_zero, hm,
    packFields_and]
  simp; decide

theorem MatchesItsRow.fmul (rd rs1 rs2 : ElemIx) : MatchesItsRow.Statement (.fmul rd rs1 rs2) := by
  refine ⟨by simp [encode, fieldOp_packFields, opcodeOf], ?_⟩
  have hm : (0xFFFC003F#32) = packFields 255 3 3 3 0 0 0 63 := by decide
  simp only [matchesRow, opcodeOf, opcodeMap, encode, List.getElem?_cons_succ, List.getElem?_cons_zero, hm,
    packFields_and]
  simp; decide

theorem MatchesItsRow.fexp (rd rs1 rs2 : ElemIx) : MatchesItsRow.Statement (.fexp rd rs1 rs2) := by
  refine ⟨by simp [encode, fieldOp_packFields, opcodeOf], ?_⟩
  have hm : (0xFFFC003F#32) = packFields 255 3 3 3 0 0 0 63 := by decide
  simp only [matchesRow, opcodeOf, opcodeMap, encode, List.getElem?_cons_succ, List.getElem?_cons_zero, hm,
    packFields_and]
  simp; decide

theorem MatchesItsRow.fexpm (rd rs1 : ElemIx) (imm8 : BitVec 8) :
    MatchesItsRow.Statement (.fexpm rd rs1 imm8) := by
  refine ⟨by simp [encode, fieldOp_packFields, opcodeOf], ?_⟩
  have hm : (0x00FFC03F#32) = packFields 0 3 3 3 15 0 0 63 := by decide
  simp only [matchesRow, opcodeOf, opcodeMap, encode, List.getElem?_cons_succ, List.getElem?_cons_zero, hm,
    packFields_and]
  simp; decide

theorem MatchesItsRow.finv (rd rs1 : ElemIx) : MatchesItsRow.Statement (.finv rd rs1) := by
  refine ⟨by simp [encode, fieldOp_packFields, opcodeOf], ?_⟩
  have hm : (0xFFFFC03F#32) = packFields 255 3 3 3 15 0 0 63 := by decide
  simp only [matchesRow, opcodeOf, opcodeMap, encode, List.getElem?_cons_succ, List.getElem?_cons_zero, hm,
    packFields_and]
  simp; decide

theorem MatchesItsRow.vecmat (rd rs1 : ElemIx) (ms1 : MatIx) :
    MatchesItsRow.Statement (.vecmat rd rs1 ms1) := by
  refine ⟨by simp [encode, fieldOp_packFields, opcodeOf], ?_⟩
  have hm : (0xFFCFC03F#32) = packFields 255 3 0 3 15 0 0 63 := by decide
  simp only [matchesRow, opcodeOf, opcodeMap, encode, List.getElem?_cons_succ, List.getElem?_cons_zero, hm,
    packFields_and]
  simp; decide

theorem MatchesItsRow.matmat (md ms1 ms2 : MatIx) : MatchesItsRow.Statement (.matmat md ms1 ms2) := by
  refine ⟨by simp [encode, fieldOp_packFields, opcodeOf], ?_⟩
  have hm : (0xFF03FFFF#32) = packFields 255 0 0 0 15 15 15 63 := by decide
  simp only [matchesRow, opcodeOf, opcodeMap, encode, List.getElem?_cons_succ, List.getElem?_cons_zero, hm,
    packFields_and]
  simp; decide

theorem MatchesItsRow.genlayer (rd : ElemIx) (imm8 : BitVec 8) :
    MatchesItsRow.Statement (.genlayer rd imm8) := by
  refine ⟨by simp [encode, fieldOp_packFields, opcodeOf], ?_⟩
  have hm : (0x00FFFC3F#32) = packFields 0 3 3 3 15 15 0 63 := by decide
  simp only [matchesRow, opcodeOf, opcodeMap, encode, List.getElem?_cons_succ, List.getElem?_cons_zero, hm,
    packFields_and]
  simp; decide

theorem MatchesItsRow.eval : MatchesItsRow.Statement .eval := by
  unfold MatchesItsRow.Statement; decide

end Sys2Proof.Laws
end

