-- ==== Sys2Proof/Tests/Slice0.lean ====
section
/-! SUPPORT. The model's own tests. Expected values are the spec's (spec/95_test_vectors.md and the worked
examples of the rules); each `witness_` theorem shows a state and operands that meet the hypotheses of the
statement it names. -/

set_option Elab.async false

namespace Sys2Proof.Tests

open Sys2Proof Sys2Proof.Machine

/-! ### Helpers -/

/-- A state with field `f` and the given element registers, everything else as reset leaves it. -/
def elemState (f : FieldSel) (xs : List (ElemIx × Nat)) : State :=
  { State.reset with fsel := f, mem := xs.foldl (fun m p => m.setElem p.1 p.2) [] }

/-- A state whose next step completes the word `w`. -/
def dueState (w : Word) : State := State.reset.withCommandDue w

/-- A state in which NOP is in progress with `n` cycles to go and `ops` pending at the host. -/
def busyState (n : Nat) (ops : List HostOp) : State := { dueState 0 with remaining := n, host := ops }

/-- IDLE with `ops` pending at the host. -/
def hostState (ops : List HostOp) : State := { State.reset with host := ops }

/-- The state of an outcome, the given one where it stops. -/
def after (s : State) : Host.Outcome State Fault Refusal → State
  | .next t => t
  | .fault _ => s
  | .refused _ => s

/-- E[r] after a command, with the code it completed with; none where it stopped. -/
def result (o : Host.Outcome State Fault Refusal) (r : ElemIx) : Option (Nat × Option Nat) :=
  match o with
  | .next t => some (t.status.ecode.toNat, t.mem.elem r)
  | .fault _ => none
  | .refused _ => none

/-- The value a host read answers. -/
def valueRead (s : State) (a : PortAddr) (n : Nat) : Option Word :=
  match s.memRead a n with
  | .ok (v, _) => some v
  | .error _ => none

/-- The state a host write answers, the given one where it stops. -/
def written (s : State) (a : PortAddr) (n : Nat) (v : Word) : State :=
  match s.memWrite a n v with
  | .ok t => t
  | .error _ => s

/-- The outcome is a next state with the property. -/
def nextAnd (o : Host.Outcome State Fault Refusal) (p : State → Bool) : Bool :=
  match o with
  | .next t => p t
  | .fault _ => false
  | .refused _ => false

theorem exists_next {o : Host.Outcome State Fault Refusal} (p : State → Bool) (h : nextAnd o p = true) :
    ∃ t, o = .next t ∧ p t = true := by
  cases o with
  | next t => exact ⟨t, rfl, h⟩
  | fault r => cases h
  | refused r => cases h

theorem some_next {o : Host.Outcome State Fault Refusal} (h : nextAnd o (fun _ => true) = true) :
    ∃ t, o = .next t := (exists_next _ h).imp fun _ ht => ht.1

/-- The outcome is a completion with code OK. -/
theorem some_next_ok {o : Host.Outcome State Fault Refusal} (h : nextAnd o (fun t => t.status.ecode == 0) = true) :
    ∃ t, o = .next t ∧ t.status.ecode = 0 := (exists_next _ h).imp fun _ ht => ⟨ht.1, by simpa using ht.2⟩

/-- The outcome is a completion with an error code. -/
theorem some_next_error {o : Host.Outcome State Fault Refusal} (h : nextAnd o (fun t => t.status.ecode != 0) = true) :
    ∃ t, o = .next t ∧ t.status.ecode ≠ 0 := (exists_next _ h).imp fun _ ht => ⟨ht.1, by simpa using ht.2⟩

/-- The host access is answered. -/
def isOk {α : Type} (o : Except Fault α) : Bool :=
  match o with
  | .ok _ => true
  | .error _ => false

theorem some_ok {α : Type} {o : Except Fault α} (h : isOk o = true) : ∃ t, o = .ok t := by
  cases o with
  | ok t => exact ⟨t, rfl⟩
  | error e => cases h

def a128 : Nat := 0x100F0E0D0C0B0A090807060504030201
def b128 : Nat := 0xE1E2E3E4E5E6E7E8E9EAEBECEDEEEFF0

/-! ### Well-formedness and decoding (L2.1) -/

theorem test_genlayer_zero_ill_formed : (Instr.genlayer 0 0).wellFormed = false := by decide
theorem test_genlayer_five_ill_formed : (Instr.genlayer 0 5).wellFormed = false := by decide
theorem test_genlayer_four_well_formed : (Instr.genlayer 0 4).wellFormed = true := by decide

theorem test_decode_nop : decode 0b00000000000000000000000000000000#32 = .ok .nop := by decide
theorem test_decode_fadd : decode 0b00000000000000000100110100000001#32 = .ok (.fadd 4 3 1) := by decide
theorem test_decode_fmul : decode 0b00000000000000001000010011000010#32 = .ok (.fmul 3 1 2) := by decide
theorem test_decode_fexp : decode 0b00000000000000000000010100000011#32 = .ok (.fexp 4 1 0) := by decide
theorem test_decode_fexpm : decode 0b00000010000000000000010111000100#32 = .ok (.fexpm 7 1 2) := by decide
theorem test_decode_finv : decode 0b00000000000000000000010101000101#32 = .ok (.finv 5 1) := by decide
theorem test_decode_vecmat : decode 0b00000000000100000000100101000110#32 = .ok (.vecmat 5 2 1) := by decide
theorem test_decode_matmat : decode 0b00000000010011000000000000000111#32 = .ok (.matmat 3 0 1) := by decide
theorem test_decode_genlayer : decode 0b00000011000000000000001111001000#32 = .ok (.genlayer 15 3) := by decide
theorem test_decode_eval : decode 0b00000000000000000000000000001001#32 = .ok .eval := by decide

theorem test_decode_nop_unused : decode 0x00000040#32 = .error (.unusedField 0) := by decide
theorem test_decode_fadd_imm : decode 0x10000001#32 = .error (.unusedField 1) := by decide
theorem test_decode_finv_rs2 : decode 0x00040005#32 = .error (.unusedField 5) := by decide
theorem test_decode_matmat_rs2 : decode 0x00030007#32 = .error (.unusedField 7) := by decide
theorem test_decode_eval_imm : decode 0x01000009#32 = .error (.unusedField 9) := by decide
theorem test_decode_reserved_low : decode 0x0000000A#32 = .error (.reservedOpcode 10) := by decide
theorem test_decode_reserved_high : decode 0x0000003F#32 = .error (.reservedOpcode 63) := by decide
theorem test_decode_layers_0 : decode 0x00000008#32 = .error (.layerCount 0) := by decide
theorem test_decode_layers_5 : decode 0x05000008#32 = .error (.layerCount 5) := by decide

/-- No word is two rows of the opcode map: any two rows differ on a bit both fix (R105). -/
theorem test_opcode_map_no_overlap :
    opcodeMap.Pairwise (fun r r' => (r.pattern ^^^ r'.pattern) &&& r.mask &&& r'.mask ≠ 0) := by decide

theorem test_table_word : decodeTableWord 32 0x020005C4 = some (.fexpm 7 1 2) := by decide
theorem test_truncated : decodeBytes [0x01, 0x40, 0x00] = .error .truncated := by decide
theorem test_bytes_little_endian :
    decodeBytes [0xC2, 0x84, 0x00, 0x00, 0xFF] = .ok (.fmul 3 1 2, [0xFF]) := by decide

theorem test_encode_fmul : encode (.fmul 3 1 2) = 0x000084C2#32 := by decide
theorem test_encode_vecmat : encode (.vecmat 0 0 3) = 0x00300006#32 := by decide
theorem test_encode_genlayer : encode (.genlayer 5 4) = 0x04000148#32 := by decide

/-! ### Assembler (L2.1, R111, R112) -/

theorem test_asm_fexpm : assembleText "fexpm e7, e1, 3 ; a^7".toList = some [0x020005C4#32] := by
  decide +kernel
theorem test_asm_matmat : assembleText "matmat m2,m1, m1".toList = some [0x00580007#32] := by decide +kernel
theorem test_asm_fmov : assembleText "fmov e2, e1".toList = some [0x00000484#32] := by decide +kernel
theorem test_asm_refuses_257 : assembleText "fexpm e0, e0, 257".toList = none := by decide +kernel
theorem test_asm_refuses_e16 : assembleText "finv e16, e0".toList = none := by decide +kernel
theorem test_asm_pseudo :
    assemble (.fsqr 2 1) = some (.fmul 2 1 1) ∧ assemble (.fclr 2 1) = some (.fadd 2 1 1) := by decide

/-! ### Commands (R140 to R149, L2.3) -/

theorem test_nop : (after (dueState 0) (step (dueState 0))).status.word = 0x02#32 := by decide

theorem test_fadd :
    result (exec (.fadd 3 1 2) (elemState .gf128 [(1, a128), (2, b128)])) 3 =
      some (0, some 0xF1EDEDE9E9EDEDE1E1EDEDE9E9EDEDF1) := by decide +kernel
theorem test_fadd_out_of_range :
    result (exec (.fadd 3 1 2) (elemState .gf128 [(1, 2 ^ 128), (2, 1), (3, 5)])) 3 = some (4, some 5) := by
  decide +kernel

theorem test_fmul :
    result (exec (.fmul 3 1 2) (elemState .gf128 [(1, a128), (2, b128)])) 3 =
      some (0, some 0x27372F771BCF93CC52965AD66E6EE578) := by decide +kernel
theorem test_fmul_gf256_top :
    result (exec (.fmul 1 1 1) (elemState .gf256 [(1, 2 ^ 255)])) 1 =
      some (0, some 0x400000000000000000000000000000000000000000000000000000000004000D) := by
  decide +kernel

theorem test_fexp :
    result (exec (.fexp 4 1 0) (elemState .gf128 [(1, a128), (0, 7)])) 4 =
      some (0, some 0x50A19DECFE7F3595D429A0AC2740A412) := by decide +kernel
theorem test_fexp_zero :
    result (exec (.fexp 4 1 0) (elemState .gf128 [(1, a128), (0, 0), (4, 9)])) 4 = some (2, some 9) := by
  decide +kernel

theorem test_fexpm :
    result (exec (.fexpm 7 1 2) (elemState .gf128 [(1, a128)])) 7 =
      some (0, some 0x50A19DECFE7F3595D429A0AC2740A412) := by decide +kernel
theorem test_fexpm_k3_gf192 :
    result (exec (.fexpm 7 1 2) (elemState .gf192 [(1, 0x1817161514131211100F0E0D0C0B0A090807060504030201)])) 7 =
      some (0, some 0x8D394B24889D885614DF3CA89172FCF9AF948299A2BFFF2A) := by decide +kernel

theorem test_finv :
    result (exec (.finv 1 1) (elemState .gf128 [(1, 2)])) 1 =
      some (0, some 0x80000000000000000000000000000043) := by decide +kernel
theorem test_finv_zero :
    result (exec (.finv 7 0) (elemState .gf128 [(0, 0), (7, 0x1234)])) 7 = some (2, some 0x1234) := by
  decide +kernel

/-- R[j] = 2^((j+1) mod 128) (L2.4). -/
def rotation128 : List Nat := (List.range 128).map fun j => 2 ^ ((j + 1) % 128)

theorem test_vec_mat : vecMat a128 rotation128 = 0x201E1C1A18161412100E0C0A08060402 := by decide +kernel
theorem test_mat_mat :
    matMat rotation128 rotation128 = (List.range 128).map fun j => 2 ^ ((j + 2) % 128) := by decide +kernel

/-! ### Layers (L1.3: the first 32 stream bytes and the rows made of them) -/

/-- The first 32 stream bytes of the AIM128 vector. -/
def stream32 (k : Nat) : Byte :=
  BitVec.ofNat 8 (0xA9FF99888018E4F38B77A15E5B24AA9306F5A303709F4F1054325E7272AC1D50 >>> (8 * k))

theorem test_lower_row_0 : lowerRow .gf128 stream32 0 0 = 0x06F5A303709F4F1054325E7272AC1D51 := by
  decide +kernel
theorem test_lower_row_1 : lowerRow .gf128 stream32 16 1 = 0xA9FF99888018E4F38B77A15E5B24AA92 := by
  decide +kernel
theorem test_upper_row_0_reads_nothing : upperRow stream32 0 0 = 1 ∧ upperLength 0 = 0 := by decide +kernel
theorem test_last_lower_row : lowerRow .gf128 stream32 0 127 = 2 ^ 127 ∧ lowerLength 128 127 = 0 := by
  decide +kernel
theorem test_genlayer_wrong_length :
    result (exec (.genlayer 5 2) { elemState .gf192 [(5, 7)] with ivlen := 16 }) 5 = some (1, some 7) := by
  decide +kernel
theorem test_eval_wrong_length :
    (after (dueState 9) (exec .eval { dueState 9 with ptlen := 16, ivlen := 24 })).status.word = 0x16#32 := by
  decide

/-! ### The host port (L2.2) and the lifecycle (P2, P7) -/

theorem test_fsel_write_3 : valueRead (written State.reset 0x000C 4 3) 0x000C 4 = some 0 := by decide
theorem test_fsel_reserved_bits :
    valueRead (written State.reset 0x000C 4 0xFFFFFFFE) 0x000C 4 = some 2 := by decide
theorem test_ivlen_six_bits :
    valueRead (written State.reset 0x0010 4 0xFFFFFFFF) 0x0010 4 = some 0x3F := by decide
theorem test_ctrl_ie_only :
    valueRead (written State.reset 0x0008 4 0xFFFFFFFF) 0x0008 4 = some 1 := by decide
theorem test_little_endian :
    valueRead (written State.reset 0x0220 4 0x04030201) 0x0221 1 = some 2 := by decide
theorem test_ct_buffer_read_only : written State.reset 0x0140 4 0x12345678 = State.reset := by decide
theorem test_reserved_offset : valueRead (written State.reset 0x0040 4 0x12345678) 0x0040 4 = some 0 := by decide
theorem test_narrow_control : State.reset.memRead 0x0004 2 = .error .hostAccess := by decide
theorem test_misaligned : State.reset.memRead 0x0221 2 = .error .hostAccess := by decide
theorem test_size_8 : State.reset.memRead 0x0220 8 = .error .hostAccess := by decide
theorem test_unwritten_host_read : State.reset.memRead 0x0220 4 = .error .unwrittenRead := by decide

/-- STATUS = 0x2E (L2.2). -/
def status2E : Status := { busy := false, done := true, err := true, hz := true, ecode := 2 }

theorem test_status_2E : status2E.word = 0x2E#32 := by decide
theorem test_clear_done : (status2E.clearOnes 2).word = 0x2C#32 := by decide
theorem test_clear_all : (status2E.clearOnes 0xFFFFFFFF).word = 0x20#32 := by decide
theorem test_irq_falls :
    (written { State.reset with ie := true, status := status2E } 0x0004 4 2).irq = false ∧
      ({ State.reset with ie := true, status := status2E } : State).irq = true := by decide

theorem test_issue_sets_busy :
    (after State.reset (step (hostState [.write 0x0000 4 0x000084C2]))).status.word = 0x01#32 := by decide +kernel
theorem test_cmd_write_while_busy :
    (after State.reset (step (busyState 3 [.write 0x0000 4 0x000084C2]))).status.word = 0x09#32 := by
  decide +kernel
theorem test_element_write_while_busy :
    (after State.reset (step (busyState 3 [.write 0x0220 4 0]))).status.word = 0x09#32 := by decide +kernel
theorem test_illegal_word :
    (after State.reset (step (dueState 0x01004441))).status.word = 0x36#32 ∧
      (after State.reset (step (dueState 0x01004441))).errcmd = 0x01004441#32 := by decide +kernel
theorem test_sticky_err :
    (after State.reset (step ({ dueState 0 with status := { (dueState 0).status with err := true } }))).status.word =
      0x06#32 := by decide +kernel
theorem test_reset_stays_idle : step State.reset = .next State.reset := by rfl
theorem test_wait_polls : (after State.reset (step (busyState 3 [.wait, .idle]))).host = [.wait, .idle] := by
  decide +kernel
theorem test_wait_ends : (after State.reset (step (hostState [.wait, .idle]))).host = [.idle] := by decide +kernel
theorem test_first_instruction :
    step (State.reset.withFetchWord 32 0x00000009) = exec .eval (State.reset.withFetchWord 32 0x00000009) := by rfl

/-! ### Witnesses: the hypotheses of each statement are met -/

theorem witness_EncodeThenDecode : (Instr.genlayer 15 4).wellFormed = true ∧ (Instr.fexpm 15 15 255).wellFormed = true := by
  decide
theorem witness_DecodeThenEncode : decode 0x04000148#32 = .ok (.genlayer 5 4) := by decide

theorem witness_ReservedOpcodeIsIllegal :
    (Due (dueState 0x0A) ∧ 10 ≤ ((dueState 0x0A).cmd.extractLsb' 0 6).toNat) ∧
      Due (dueState 0x3F) ∧ 10 ≤ ((dueState 0x3F).cmd.extractLsb' 0 6).toNat := by decide
theorem witness_UnusedFieldIsIllegal : Due (dueState 0x00040005) ∧ unusedFieldNonzero (dueState 0x00040005).cmd :=
  ⟨by decide, Or.inr (Or.inl (by decide))⟩
theorem witness_LayerCountIsIllegal :
    (Due (dueState 0x05000008) ∧
      (dueState 0x05000008).cmd = (8#32 ||| (0#4).setWidth 32 <<< 6 ||| (5#8).setWidth 32 <<< 24)) ∧
    (Due (dueState 0x00000048) ∧
      (dueState 0x00000048).cmd = (8#32 ||| (1#4).setWidth 32 <<< 6 ||| (0#8).setWidth 32 <<< 24)) := by decide
theorem witness_PseudoInstructionResults :
    (elemState .gf128 [(1, a128)]).mem.elem 1 = some a128 ∧ a128 < 2 ^ FieldSel.gf128.degree := by decide +kernel

theorem witness_DueStepRunsTheCommand : Due (dueState 0x000084C2) ∧ decode (dueState 0x000084C2).cmd = .ok (.fmul 3 1 2) := by
  decide
/-- Each clause: nothing pending, an idle cycle, a read and a write that are answered and that fault, a poll of `wait`
while BUSY and while IDLE, a wait for IRQ. -/
theorem witness_OtherStepIsTheHostTurn :
    (¬ Due State.reset ∧ State.reset.host = []) ∧ ¬ Due (busyState 1 [.idle]) ∧
    (¬ Due (busyState 1 [.read 0x0000 4]) ∧
      ∃ p, (busyState 1 [.read 0x0000 4]).cyclePassed.memRead 0x0000 4 = .ok p) ∧
    (¬ Due (hostState [.read 0x0220 4]) ∧
      (hostState [.read 0x0220 4]).cyclePassed.memRead 0x0220 4 = .error .unwrittenRead) ∧
    (∃ t, (busyState 1 [.write 0x0220 4 5]).cyclePassed.memWrite 0x0220 4 5 = .ok t) ∧
    (hostState [.write 0x0221 2 5]).cyclePassed.memWrite 0x0221 2 5 = .error .hostAccess ∧
    (∃ p, ({ hostState [.wait] with rst := true } : State).cyclePassed.memRead 0x0004 4 = .ok p) ∧
    (¬ Due (busyState 1 [.wait]) ∧ (busyState 1 [.wait]).rst = false) ∧
    (¬ Due (hostState [.wait]) ∧ (hostState [.wait]).rst = false) ∧ ¬ Due (hostState [.waitIrq]) :=
  ⟨by decide, by decide, ⟨by decide, some_ok (by decide +kernel)⟩, by decide, some_ok (by decide +kernel), by decide,
    some_ok (by decide +kernel), by decide, by decide, by decide⟩
theorem witness_StepKeepsInvariant : (dueState 0x3F).Inv ∧ ∃ t, step (dueState 0x3F) = .next t :=
  ⟨by decide, some_next (by decide +kernel)⟩
/-- Both cases of a completion: code 0 and an error code. -/
theorem witness_CompletionReport :
    (Due (dueState 0) ∧ ∃ t, step (dueState 0) = .next t ∧ t.status.ecode = 0) ∧
    (Due (dueState 0x3F) ∧ ∃ t, step (dueState 0x3F) = .next t ∧ t.status.ecode ≠ 0) :=
  ⟨⟨by decide, some_next_ok (by decide +kernel)⟩, by decide, some_next_error (by decide +kernel)⟩
theorem witness_ErrcmdRule :
    (Due (dueState 9) ∧ ∃ t, step (dueState 9) = .next t ∧ t.status.ecode ≠ 0) ∧
    (Due (dueState 0) ∧ ∃ t, step (dueState 0) = .next t ∧ t.status.ecode = 0) ∧
    (¬ Due (busyState 1 [.write 0x0018 4 5]) ∧ (busyState 1 [.write 0x0018 4 5]).rst = false ∧
      (∀ rest, (busyState 1 [.write 0x0018 4 5]).host ≠ .assertReset :: rest) ∧
      ∃ t, step (busyState 1 [.write 0x0018 4 5]) = .next t) ∧ State.reset.rst = false :=
  ⟨⟨by decide, some_next_error (by decide +kernel)⟩, ⟨by decide, some_next_ok (by decide +kernel)⟩,
    ⟨by decide, rfl, fun _ h => (by cases h), some_next (by decide +kernel)⟩, rfl⟩
theorem witness_CmdWriteIssues :
    ((hostState [.write 0x0000 4 0x3F]).rst = false ∧ (hostState [.write 0x0000 4 0x3F]).status.busy = false ∧
      (hostState [.write 0x0000 4 0x3F]).host = .write 0x0000 4 0x3F :: []) ∧
    (busyState 2 []).rst = false ∧ (busyState 2 []).status.busy = true ∧
      ∃ t, (busyState 2 []).memWrite 0x0000 4 9 = .ok t := 
  ⟨by decide, rfl, rfl, some_ok (by decide +kernel)⟩
theorem witness_OperandsFixedWhileBusy :
    (busyState 1 [.write 0x0220 4 5]).rst = false ∧ (busyState 1 [.write 0x0220 4 5]).status.busy = true ∧
      (busyState 1 [.write 0x0220 4 5]).remaining ≠ 0 ∧
      (∀ rest, (busyState 1 [.write 0x0220 4 5]).host ≠ .assertReset :: rest) ∧
      ∃ t, step (busyState 1 [.write 0x0220 4 5]) = .next t :=
  ⟨rfl, rfl, by decide, fun _ h => (by cases h), some_next (by decide +kernel)⟩
theorem witness_CompletionComes :
    (busyState 2 [.wait]).rst = false ∧ (busyState 2 [.wait]).status.busy = true ∧
      HostOp.assertReset ∉ (busyState 2 [.wait]).host ∧
      ∃ t, Host.Core.run core (busyState 2 [.wait]).remaining (busyState 2 [.wait]) = .next t :=
  ⟨rfl, rfl, by decide, some_next (by decide +kernel)⟩
theorem witness_IrqLevel :
    (Due (dueState 0) ∧ ∃ t, step (dueState 0) = .next t) ∧
      (State.reset.rst = false ∧ (2#32).getLsbD 1 = true) ∧ ∃ t, State.reset.memWrite 0x0008 4 1 = .ok t :=
  ⟨⟨by decide, some_next (by decide +kernel)⟩, by decide, some_ok (by decide +kernel)⟩

theorem witness_RstReleaseResets :
    ({ busyState 2 [.releaseReset] with rst := true } : State).rst = true ∧
      ({ busyState 2 [.releaseReset] with rst := true } : State).host = .releaseReset :: [] := by decide
theorem witness_RstBlocksEverything :
    (¬ Due (busyState 2 [.assertReset]) ∧ (busyState 2 [.assertReset]).host = .assertReset :: []) ∧
    (({ busyState 0 [] with rst := true } : State).rst = true ∧ InContract (0x0220#16).toNat 1 ∧
      InContract (0x0000#16).toNat 4) ∧
    (∀ rest, ({ busyState 0 [.write 0x0000 4 9] with rst := true } : State).host ≠ .releaseReset :: rest) ∧
    ∃ t, step { busyState 0 [.write 0x0000 4 9] with rst := true } = .next t :=
  ⟨by decide, by decide, fun _ h => (by cases h), some_next (by decide +kernel)⟩

/-- FADD and FMUL, with RD = RS1 = RS2 among the operands; FEXP with exponent ≥ 2^d; FEXPM; FINV. -/
theorem witness_FaddCompletes :
    (elemState .gf128 [(1, 2 ^ 128 - 1)]).mem.elem 1 = some (2 ^ 128 - 1) ∧ 2 ^ 128 - 1 < 2 ^ FieldSel.gf128.degree := by
  decide +kernel
theorem witness_FmulCompletes :
    (elemState .gf192 [(0, 2 ^ 192 - 1), (15, 2)]).mem.elem 0 = some (2 ^ 192 - 1) ∧
      (elemState .gf192 [(0, 2 ^ 192 - 1), (15, 2)]).mem.elem 15 = some 2 ∧ 2 < 2 ^ FieldSel.gf192.degree ∧
      2 ^ 192 - 1 < 2 ^ FieldSel.gf192.degree := by decide +kernel
theorem witness_FexpCompletes :
    (elemState .gf128 [(1, 3), (2, 2 ^ 255)]).mem.elem 1 = some 3 ∧
      (elemState .gf128 [(1, 3), (2, 2 ^ 255)]).mem.elem 2 = some (2 ^ 255) ∧ 3 < 2 ^ FieldSel.gf128.degree ∧
      2 ^ 255 ≠ 0 := by decide +kernel
theorem witness_FexpmCompletes :
    (elemState .gf256 [(1, 2 ^ 255)]).mem.elem 1 = some (2 ^ 255) ∧ 2 ^ 255 < 2 ^ FieldSel.gf256.degree := by
  decide +kernel
theorem witness_FinvCompletes :
    (elemState .gf128 [(1, 1)]).mem.elem 1 = some 1 ∧ 1 < 2 ^ FieldSel.gf128.degree ∧ 1 ≠ 0 := by decide +kernel

/-- E[1] = 15 and M[2] = the identity, in GF128. -/
def matrixState : State :=
  { State.reset with mem := (Memory.setMatrix [] 2 (identityMatrix 128)).setElem 1 15 }

/-- E[1] = 15 and M[2] with one entry 2^128, in GF128. -/
def badMatrixState : State :=
  { State.reset with mem := (Memory.setMatrix [] 2 (2 ^ 128 :: List.replicate 127 0)).setElem 1 15 }

theorem elem_after_setElem (m : Memory) : (m.setElem 1 15).elem 1 = some 15 := Memory.elem_setElem_same m 1 15

theorem matrix_after_setElem (xs : List Nat) (h : xs.length = 128) (hx : xs.map (· % 2 ^ 256) = xs) :
    ((Memory.setMatrix [] 2 xs).setElem 1 15).matrix 2 128 = some xs := by
  rw [Memory.setElem, Memory.matrix_write_outside _ _ _ _ _ (by decide)]
  have := Memory.matrix_setMatrix_same [] 2 xs
  rw [h, hx] at this
  exact this

theorem witness_VecmatCompletes :
    matrixState.mem.elem 1 = some 15 ∧
      matrixState.mem.matrix (2#2).toNat matrixState.fsel.degree = some (identityMatrix 128) ∧
      15 < 2 ^ matrixState.fsel.degree ∧ EntriesBelow matrixState.fsel.degree (identityMatrix 128) :=
  ⟨elem_after_setElem _, matrix_after_setElem _ (by decide +kernel) (by decide +kernel), by decide, by decide +kernel⟩
theorem witness_MatmatCompletes :
    matrixState.mem.matrix (2#2).toNat matrixState.fsel.degree = some (identityMatrix 128) ∧
      EntriesBelow matrixState.fsel.degree (identityMatrix 128) :=
  ⟨matrix_after_setElem _ (by decide +kernel) (by decide +kernel), by decide +kernel⟩

/-- GF128 with the IV and PT buffers zero, IVLEN = PTLEN = 16. -/
def bufferState : State :=
  { State.reset with
    ivlen := 16
    ptlen := 16
    mem := (Memory.write [] ivBase (List.replicate 16 0)).write ptBase (List.replicate 16 0) }

theorem witness_GenlayerCompletes :
    (1 ≤ (1#8).toNat ∧ (1#8).toNat ≤ 4) ∧ (1 ≤ (4#8).toNat ∧ (4#8).toNat ≤ 4) ∧
      bufferState.ivlen.toNat = bufferState.fsel.bytes ∧
      bufferState.mem.readBytes ivBase bufferState.fsel.bytes = some (List.replicate 16 0) := by decide +kernel
theorem witness_EvalCompletes :
    bufferState.ptlen.toNat = FieldSel.gf128.bytes ∧ bufferState.ivlen.toNat = FieldSel.gf128.bytes ∧
      bufferState.mem.readBytes ptBase FieldSel.gf128.bytes = some (List.replicate 16 0) ∧
      bufferState.mem.readBytes ivBase FieldSel.gf128.bytes = some (List.replicate 16 0) := by decide +kernel

theorem witness_ElementCommandFrame :
    elementDest (.fadd 3 1 1) = some 3 ∧ ∃ t, exec (.fadd 3 1 1) (elemState .gf128 [(1, 5)]) = .next t :=
  ⟨by decide, some_next (by decide +kernel)⟩
theorem witness_MatmatFrame : ∃ t, exec (.matmat 1 2 2) badMatrixState = .next t := by
  have h : badMatrixState.fetchMatrix 2 = .ok (2 ^ 128 :: List.replicate 127 0) :=
    congrArg fetched (matrix_after_setElem _ (by decide +kernel) (by decide +kernel))
  have hv : validMatrix badMatrixState.fsel (2 ^ 128 :: List.replicate 127 0) = false := by decide +kernel
  refine ⟨badMatrixState.complete .operandRange, ?_⟩
  change badMatrixState.finish (matmatBody badMatrixState 1 2 2) = _
  have hb : matmatBody badMatrixState 1 2 2 = .error (.raise .operandRange) := by
    simp only [matmatBody, h, ok_bind, hv, require_false, error_bind]
  rw [hb]
  rfl
theorem witness_GenlayerFrame : ∃ t, exec (.genlayer 5 2) State.reset = .next t := some_next (by decide +kernel)
theorem witness_EvalAndNopFrame :
    (∃ t, exec .eval State.reset = .next t) ∧ ∃ t, exec .nop State.reset = .next t :=
  ⟨some_next (by decide +kernel), some_next (by decide +kernel)⟩
theorem witness_FieldResultIsZeroExtended :
    elementDest (.fadd 3 1 1) = some 3 ∧
      ∃ t, exec (.fadd 3 1 1) (elemState .gf128 [(1, 5)]) = .next t ∧ t.status.ecode = 0 :=
  ⟨by decide, some_next_ok (by decide +kernel)⟩

theorem witness_ElementOutOfRange :
    (elemState .gf128 [(1, 2 ^ 128), (2, 0)]).mem.elem 1 = some (2 ^ 128) ∧
      (elemState .gf128 [(1, 2 ^ 128), (2, 0)]).mem.elem 2 = some 0 ∧ 2 ^ FieldSel.gf128.degree ≤ 2 ^ 128 := by
  decide +kernel
theorem witness_ElementOutOfRange_vecmat :
    ({ matrixState with mem := matrixState.mem.setElem 3 (2 ^ 128) } : State).mem.elem 3 = some (2 ^ 128) ∧
      ({ matrixState with mem := matrixState.mem.setElem 3 (2 ^ 128) } : State).mem.matrix (2#2).toNat 128 =
        some (identityMatrix 128) := by
  refine ⟨Memory.elem_setElem_same _ 3 (2 ^ 128), ?_⟩
  rw [show ({ matrixState with mem := matrixState.mem.setElem 3 (2 ^ 128) } : State).mem =
    matrixState.mem.setElem 3 (2 ^ 128) from rfl, Memory.setElem, Memory.matrix_write_outside _ _ _ _ _ (by decide)]
  exact matrix_after_setElem _ (by decide +kernel) (by decide +kernel)
theorem witness_MatrixOutOfRange :
    badMatrixState.mem.elem 1 = some 15 ∧
      badMatrixState.mem.matrix (2#2).toNat badMatrixState.fsel.degree = some (2 ^ 128 :: List.replicate 127 0) ∧
      ∃ x ∈ (2 ^ 128 :: List.replicate 127 0 : List Nat), 2 ^ badMatrixState.fsel.degree ≤ x :=
  ⟨elem_after_setElem _, matrix_after_setElem _ (by decide +kernel) (by decide +kernel), 2 ^ 128, by simp, by decide⟩
theorem witness_InvalidOperandCases :
    (elemState .gf128 [(1, 0), (2, 5)]).mem.elem 1 = some 0 ∧
      (elemState .gf128 [(1, 0), (2, 5)]).mem.elem 2 = some 5 ∧ 5 < 2 ^ FieldSel.gf128.degree := by decide +kernel
theorem witness_InvalidInputCases :
    State.reset.ivlen.toNat ≠ State.reset.fsel.bytes ∧
      (State.reset.ptlen.toNat ≠ 16 ∧ State.reset.ptlen.toNat ≠ 24 ∧ State.reset.ptlen.toNat ≠ 32) ∧
      ({ State.reset with ptlen := 24, ivlen := 16 } : State).ivlen ≠
        ({ State.reset with ptlen := 24, ivlen := 16 } : State).ptlen := by decide
theorem witness_UnwrittenOperandFaults :
    (∃ k, k < 32 ∧ State.reset.mem.byteAt (elemBase (1#4).toNat + k) = none) ∧
    (∃ k, k < 32 * State.reset.fsel.degree ∧ State.reset.mem.byteAt (entryBase (1#2).toNat 0 + k) = none) ∧
    (({ State.reset with ivlen := 16, ptlen := 16 } : State).ivlen.toNat = FieldSel.gf128.bytes ∧
      ({ State.reset with ivlen := 16, ptlen := 16 } : State).ptlen.toNat = FieldSel.gf128.bytes ∧
      ∃ k, k < FieldSel.gf128.bytes ∧ State.reset.mem.byteAt (ivBase + k) = none) :=
  ⟨⟨31, by decide, rfl⟩, ⟨4095, by decide, rfl⟩, by decide, by decide, 15, by decide, rfl⟩

/-- An access outside the contract and the last one inside it. -/
theorem witness_HostAccessFault :
    ¬ InContract (0x0004#16).toNat 2 ∧ ¬ InContract (0x0221#16).toNat 2 ∧ InContract (0xFFFF#16).toNat 1 ∧
      InContract (0x00FC#16).toNat 4 := by decide
/-- The ends of the writable windows, written bytes at the end of CT_BUF, and unwritten ones at its beginning. -/
theorem witness_WriteThenRead :
    (State.reset.rst = false ∧ State.reset.status.busy = false ∧ InContract (0x0100#16).toNat 4 ∧
      InContract (0x013F#16).toNat 1 ∧ InContract (0x03FE#16).toNat 2 ∧ InContract (0xFFFC#16).toNat 4) ∧
    (InContract (0x015E#16).toNat 2 ∧ (0xBEEF#32).toNat < 2 ^ (8 * 2) ∧
      ∀ k, k < 2 → ({ State.reset with mem := [(0x015E, 0xEF), (0x015F, 0xBE)] } : State).mem.byteAt
        ((0x015E#16).toNat + k) = some (BitVec.ofNat 8 ((0xBEEF#32).toNat >>> (8 * k)))) ∧
    (InContract (0x0140#16).toNat 4 ∧ ∃ k, k < 4 ∧ State.reset.mem.byteAt ((0x0140#16).toNat + k) = none) :=
  ⟨by decide, by decide, by decide, 3, by decide, rfl⟩
/-- Each clause at the ends of its range. -/
theorem witness_WriteHazard :
    (busyState 1 []).rst = false ∧ (busyState 1 []).status.busy = true ∧
    InContract (0x0000#16).toNat 4 ∧ InContract (0xFFFC#16).toNat 4 ∧ InContract (0x013F#16).toNat 1 ∧
    ¬ Protected (0x0004#16).toNat ∧ ¬ Protected (0x0008#16).toNat := by decide
theorem witness_WriteHazard_protected :
    [0x0000#16, 0x000C#16, 0x0010#16, 0x0014#16, 0x0100#16, 0x013C#16, 0x0200#16, 0x03FC#16, 0x8000#16, 0xFFFC#16].all
      (fun a => decide (Protected a.toNat)) = true := by decide +kernel
theorem witness_WriteHazard_ignored :
    [0x0018#16, 0x001C#16, 0x00FC#16, 0x0140#16, 0x01FC#16, 0x0400#16, 0x7FFC#16].all
      (fun a => decide (¬ Protected a.toNat)) = true := by decide +kernel
/-- Storage, each control register, and the ends of the reserved ranges; BUSY and IDLE. -/
theorem witness_ReadHazard :
    ((busyState 1 []).rst = false ∧ (busyState 1 []).status.busy = true ∧ State.reset.rst = false) ∧
    ([(0x0100#16, 4), (0x015F#16, 1), (0x0200#16, 4), (0x03FE#16, 2), (0x8000#16, 4), (0xFFFF#16, 1), (0x0000#16, 4),
      (0x0004#16, 4), (0x0008#16, 4), (0x000C#16, 4), (0x0010#16, 4), (0x0014#16, 4), (0x0018#16, 4), (0x001C#16, 4),
      (0x00FC#16, 4), (0x0160#16, 1), (0x01FE#16, 2), (0x0400#16, 4), (0x7FFF#16, 1)].all
        fun p => decide (InContract p.1.toNat p.2)) = true := by decide +kernel
theorem witness_ReservedControlOffsets :
    State.reset.rst = false ∧ 0x1C ≤ (0x001C#16).toNat ∧ (0x00FC#16).toNat ≤ 0xFC ∧ (0x00FC#16).toNat % 4 = 0 := by
  decide
theorem witness_CtrlRegister : (busyState 1 []).rst = false := by decide
theorem witness_ParameterRegisters :
    State.reset.rst = false ∧ State.reset.status.busy = false ∧ (7#32).toNat % 4 = 3 ∧ (6#32).toNat % 4 = 2 := by decide
theorem witness_StatusRegister : (busyState 1 []).rst = false := by decide
theorem witness_NoHazardUnderObligations :
    (busyState 1 [.write 0x0008 4 1]).status.hz = false ∧
      (∀ a n v rest, (busyState 1 [.write 0x0008 4 1]).host = .write a n v :: rest → ¬ Protected a.toNat) ∧
      ∃ t, step (busyState 1 [.write 0x0008 4 1]) = .next t :=
  ⟨rfl, fun a n v rest h => (by cases h; decide), some_next (by decide +kernel)⟩
theorem witness_WritesAreIdempotent :
    (0x0220#16) ≠ 0 ∧ ∃ t, State.reset.memWrite 0x0220 4 5 = .ok t :=
  ⟨by decide, some_ok (by decide +kernel)⟩
theorem witness_SerialisationRoundTrip :
    2 ^ 192 - 1 < 2 ^ FieldSel.gf192.degree ∧ (List.replicate 24 (0xFF#8)).length = FieldSel.gf192.bytes := by decide

theorem witness_GfMulIsTheReducedProduct :
    2 ^ 255 < 2 ^ FieldSel.gf256.degree ∧ 2 ^ 256 - 1 < 2 ^ FieldSel.gf256.degree := by decide
theorem witness_GfMulLaws : a128 < 2 ^ FieldSel.gf128.degree ∧ b128 < 2 ^ FieldSel.gf128.degree := by decide
theorem witness_GfExpIsTheRepeatedProduct : a128 < 2 ^ FieldSel.gf128.degree ∧ 1 ≤ 7 := by decide
theorem witness_GfInvIsTheInverse : a128 < 2 ^ FieldSel.gf128.degree ∧ a128 ≠ 0 := by decide
theorem witness_MatrixLaws :
    a128 < 2 ^ FieldSel.gf128.degree ∧ (identityMatrix 128).length = FieldSel.gf128.degree ∧
      EntriesBelow FieldSel.gf128.degree (identityMatrix 128) := by decide +kernel
theorem witness_LayersAreInvertible : ∃ x, (lowerRows .gf128 stream32 128 0 0).1[127]? = some x :=
  ⟨_, List.getElem?_eq_getElem (by rw [show (lowerRows .gf128 stream32 128 0 0).1.length = 128 by decide +kernel]; decide)⟩
theorem witness_LayersAreInvertible_upper : ∃ x, (upperRows stream32 128 0 0).1[0]? = some x :=
  ⟨_, List.getElem?_eq_getElem (by rw [show (upperRows stream32 128 0 0).1.length = 128 by decide +kernel]; decide)⟩
theorem witness_LayersExtend :
    2 ≤ 3 ∧ ∃ a, (generateLayer .gf256 stream32 3).1[2]? = some a :=
  ⟨by decide, _, List.getElem?_eq_getElem (by
    rw [generateLayer]; exact (layersFrom_length .gf256 stream32 3 0).symm ▸ (by decide : 2 < 3))⟩
/-- Two streams that differ behind the last byte a call of AIM128 reads. -/
theorem witness_LayerStreamBytes :
    (∀ p, p < 4304 → stream32 p = (fun q => if q < 4304 then stream32 q else 0) p) ∧
      2 * 2 * rowBytes .gf128 + FieldSel.bytes .gf128 = 4304 :=
  ⟨fun p hp => (if_pos hp).symm, by decide⟩
theorem witness_EvalDependsOnItsInputs :
    State.reset.ptlen = ({ State.reset with fsel := .gf256 } : State).ptlen ∧
      State.reset.ivlen = ({ State.reset with fsel := .gf256 } : State).ivlen ∧
      (∀ k, k < State.reset.ptlen.toNat → State.reset.mem.byteAt (ptBase + k) = State.reset.mem.byteAt (ptBase + k)) ∧
      ∃ t, exec .eval State.reset = .next t := 
  ⟨rfl, rfl, fun _ _ => rfl, some_next (by decide +kernel)⟩

end Sys2Proof.Tests
end

section
/-! What a completion leaves (R254, R255), and what the body of each command stores. -/

namespace Sys2Proof.Machine

open Sys2Proof

/-! ### What a completion leaves (R254, R255) -/

theorem ErrorCode.bits_eq_zero_iff (c : ErrorCode) : c.bits = 0 ↔ c = .ok := by
  cases c <;> decide

theorem ErrorCode.bits_le (c : ErrorCode) : c.bits.toNat ≤ 4 := by
  cases c <;> decide

theorem sameControls_complete (s : State) (m : Memory) (c : ErrorCode) :
    SameControls s (State.complete { s with mem := m } c) := by
  simp [SameControls]

/-- A completion with an error code is what R255 lists. -/
theorem failedWith_complete (s : State) {c : ErrorCode} (h : c ≠ .ok) : FailedWith c.bits s (s.complete c) := by
  have herr : (s.status.err || c != .ok) = true := by simp [h]
  refine ⟨?_, by simp [h], rfl, rfl, sameControls_complete s s.mem c⟩
  rw [State.complete_status, Status.afterCompletion, herr]

/-- What a command that answers a next state did: it stored its body's storage and completed with code OK, or it
completed with an error code and stored nothing (R254). -/
theorem exec_eq_next {i : Instr} {s t : State} (h : exec i s = .next t) :
    (∃ m, bodyOf i s = .ok m ∧ t = State.complete { s with mem := m } .ok) ∨
      ∃ c, c ≠ .ok ∧ t = s.complete c := by
  rw [exec_eq_finish, State.finish_eq_next_iff] at h
  obtain hm | ⟨c, hc, ht⟩ := h
  · exact .inl hm
  · exact .inr ⟨c, bodyOf_raise_ne_ok i s c hc, ht⟩

/-- What the completion step did, whatever the word in CMD is (R254). -/
theorem State.completion_eq_next {s t : State} (h : s.completion = .next t) :
    (∃ i m, decode s.cmd = .ok i ∧ bodyOf i s = .ok m ∧ t = State.complete { s with mem := m } .ok) ∨
      ∃ c, c ≠ .ok ∧ t = s.complete c := by
  cases hd : decode s.cmd with
  | ok i =>
    rw [State.completion_of_command s i hd] at h
    obtain ⟨m, hm, ht⟩ | he := exec_eq_next h
    · exact .inl ⟨i, m, rfl, hm, ht⟩
    · exact .inr he
  | error e =>
    rw [State.completion_of_illegal s e hd] at h
    exact .inr ⟨.illegalCommand, by decide, (Host.Outcome.next.inj h).symm⟩

/-- A due step completes the command with some code, over some storage (R251, R254). -/
theorem step_of_due_eq_next {s t : State} (hd : Due s) (h : step s = .next t) :
    ∃ m c, t = State.complete { s with mem := m } c := by
  rw [step_of_due s ((State.completionDue_iff s).mpr hd)] at h
  obtain ⟨_, m, -, -, ht⟩ | ⟨c, -, ht⟩ := State.completion_eq_next h
  · exact ⟨m, .ok, ht⟩
  · exact ⟨s.mem, c, ht⟩

/-! ### What a command stores -/

theorem gfExp_lt (f : FieldSel) (x e : Nat) : gfExp f x e < 2 ^ f.degree :=
  gfExpLoop_lt f x e _ (Nat.one_lt_two_pow (by have := degree_pos f; omega))

theorem vecMat_lt (v : Nat) {d : Nat} {a : List Nat} (h : EntriesBelow d a) : vecMat v a < 2 ^ d :=
  vecMatFrom_lt v a h 0 (Nat.two_pow_pos d)

theorem validOperand_iff (f : FieldSel) (x : Nat) : validOperand f x = true ↔ x < 2 ^ f.degree := by
  simp [validOperand]

theorem validMatrix_iff (f : FieldSel) (a : List Nat) : validMatrix f a = true ↔ EntriesBelow f.degree a := by
  simp [validMatrix, validOperand_iff]

/-- A command with an element destination stores one field element, in that register (R34). -/
theorem bodyOf_elementDest {i : Instr} {rd : ElemIx} {s : State} {m : Memory} (hi : elementDest i = some rd)
    (h : bodyOf i s = .ok m) : ∃ r, r < 2 ^ s.fsel.degree ∧ m = s.mem.setElem rd r := by
  cases i with
  | fadd _ rs1 rs2 =>
    obtain rfl := Option.some.inj hi
    obtain ⟨a, b, -, -, ha, hb, rfl⟩ := faddBody_eq_ok _ _ _ _ _ h
    exact ⟨_, Nat.xor_lt_two_pow ((validOperand_iff _ _).mp ha) ((validOperand_iff _ _).mp hb), rfl⟩
  | fmul _ rs1 rs2 =>
    obtain rfl := Option.some.inj hi
    obtain ⟨a, b, -, -, ha, -, rfl⟩ := fmulBody_eq_ok _ _ _ _ _ h
    exact ⟨_, gfMulLoop_lt _ _ _ (Nat.two_pow_pos _) ((validOperand_iff _ _).mp ha), rfl⟩
  | fexp _ rs1 rs2 =>
    obtain rfl := Option.some.inj hi
    obtain ⟨x, e, -, -, -, -, rfl⟩ := fexpBody_eq_ok _ _ _ _ _ h
    exact ⟨_, gfExp_lt _ _ _, rfl⟩
  | fexpm _ rs1 imm8 =>
    obtain rfl := Option.some.inj hi
    obtain ⟨x, -, -, rfl⟩ := fexpmBody_eq_ok _ _ _ _ _ h
    exact ⟨_, gfExp_lt _ _ _, rfl⟩
  | finv _ rs1 =>
    obtain rfl := Option.some.inj hi
    obtain ⟨x, -, -, -, rfl⟩ := finvBody_eq_ok _ _ _ _ h
    exact ⟨_, gfExp_lt _ _ _, rfl⟩
  | vecmat _ rs1 ms1 =>
    obtain rfl := Option.some.inj hi
    obtain ⟨v, a, -, -, -, ha, rfl⟩ := vecmatBody_eq_ok _ _ _ _ _ h
    exact ⟨_, vecMat_lt v ((validMatrix_iff _ _).mp ha), rfl⟩
  | nop | matmat _ _ _ | genlayer _ _ | eval => cases hi

theorem Memory.matrix_length {m : Memory} {k d : Nat} {a : List Nat} (h : m.matrix k d = some a) :
    a.length = d := by
  rw [Memory.matrix_eq_entries] at h
  exact ((Memory.entries_eq_some_iff _ _ _ _).mp h).1

/-- MATMAT stores d entries, in its destination (R184). -/
theorem bodyOf_matmat {md ms1 ms2 : MatIx} {s : State} {m : Memory} (h : bodyOf (.matmat md ms1 ms2) s = .ok m) :
    ∃ c : List Nat, c.length = s.fsel.degree ∧ m = s.mem.setMatrix md.toNat c := by
  obtain ⟨a, b, ha, -, -, -, rfl⟩ := matmatBody_eq_ok _ _ _ _ _ h
  exact ⟨_, by rw [matMat_length, Memory.matrix_length ha], rfl⟩

theorem readStream_length (xof : Nat → Byte) (pos n : Nat) : (readStream xof pos n).length = n := by
  simp [readStream]

theorem generateLayer_constant_lt (f : FieldSel) (xof : Nat → Byte) (n : Nat) :
    (generateLayer f xof n).2 < 2 ^ f.degree := by
  have h := fromBytes_lt (readStream xof (layersFrom f xof n 0).2 f.bytes)
  rwa [readStream_length, ← degree_eq_eight_bytes] at h

/-- GENLAYER stores s matrices of d entries from M[0] on, then a field element in E[RD] (R201). -/
theorem bodyOf_genlayer {rd : ElemIx} {imm8 : BitVec 8} {s : State} {m : Memory}
    (h : bodyOf (.genlayer rd imm8) s = .ok m) :
    ∃ (cs : List (List Nat)) (r : Nat), cs.length = imm8.toNat ∧ (∀ c ∈ cs, c.length = s.fsel.degree) ∧
      r < 2 ^ s.fsel.degree ∧ m = (s.mem.setMatrices 0 cs).setElem rd r := by
  obtain ⟨iv, -, -, rfl⟩ := genlayerBody_eq_ok _ _ _ _ h
  exact ⟨_, _, layersFrom_length _ _ _ _, layersFrom_entries _ _ _ _, generateLayer_constant_lt _ _ _, rfl⟩

theorem variantOfLength_eq_some_iff (n : Nat) (f : FieldSel) : variantOfLength n = some f ↔ n = f.bytes := by
  constructor
  · unfold variantOfLength
    split_ifs with h16 h24 h32 <;> rintro ⟨⟩
    · exact h16
    · exact h24
    · exact h32
  · rintro rfl
    cases f <;> rfl

theorem aimEval_length (f : FieldSel) (xof : Nat → Byte) (pt : List Byte) :
    (aimEval f xof pt).length = f.bytes := toBytes_length _ _

theorem bytes_le (f : FieldSel) : f.bytes ≤ 32 := by cases f <;> decide

/-- EVAL stores 32 bytes, CT_BUF whole (R39, R230). -/
theorem bodyOf_eval {s : State} {m : Memory} (h : bodyOf .eval s = .ok m) :
    ∃ bs : List Byte, bs.length = 32 ∧ m = s.mem.write ctBase bs := by
  obtain ⟨f, pt, iv, hf, -, -, -, rfl⟩ := evalBody_eq_ok _ _ h
  refine ⟨_, ?_, rfl⟩
  rw [List.length_append, aimEval_length, List.length_replicate, (variantOfLength_eq_some_iff _ _).mp hf]
  have := bytes_le f
  omega

end Sys2Proof.Machine
end

section
/-! The machine's invariant (R35, R39, R47, R51, R252): storage, completion, the host's turn. -/

namespace Sys2Proof.Machine

open Sys2Proof

/-! ### Storage -/

/-- The part of the invariant that is about storage. -/
def Memory.Sound (m : Memory) : Prop := m.wf = true ∧ ctBufferWhole m

/-- The `n` bytes from `a` on lie in one of the windows of storage other than CT_BUF: IV_BUF and PT_BUF, E, or M
(R73). -/
def InOperandWindow (a n : Nat) : Prop :=
  (0x0100 ≤ a ∧ a + n ≤ 0x0140) ∨ (0x0200 ≤ a ∧ a + n ≤ 0x0400) ∨ (0x8000 ≤ a ∧ a + n ≤ 0x10000)

theorem isStorage_iff (a : Nat) : isStorage a = true ↔
    (0x0100 ≤ a ∧ a < 0x0160) ∨ (0x0200 ≤ a ∧ a < 0x0400) ∨ (0x8000 ≤ a ∧ a < 0x10000) := by
  simp only [isStorage, Bool.or_eq_true, Bool.and_eq_true, decide_eq_true_eq, or_assoc]

/-- A write outside CT_BUF keeps storage sound. -/
theorem Memory.Sound.write {m : Memory} (h : m.Sound) {a : Nat} {bs : List Byte}
    (hw : InOperandWindow a bs.length) : (m.write a bs).Sound := by
  obtain ⟨hwf, hct⟩ := h
  unfold InOperandWindow at hw
  refine ⟨Memory.wf_write m a bs hwf fun x h1 h2 => (isStorage_iff x).mpr (by omega), ?_⟩
  have hkept : ∀ k, k < 32 → (m.write a bs).byteAt (ctBase + k) = m.byteAt (ctBase + k) :=
    fun k hk => Memory.byteAt_write_outside _ _ _ _ (by rw [ctBase]; omega)
  exact hct.imp (fun h k hk => (hkept k hk).trans (h k hk)) fun h k hk => by rw [hkept k hk]; exact h k hk

/-- Writing all of CT_BUF keeps storage sound. -/
theorem Memory.Sound.writeCt {m : Memory} (h : m.Sound) {bs : List Byte} (hl : bs.length = 32) :
    (m.write ctBase bs).Sound := by
  refine ⟨Memory.wf_write m ctBase bs h.1 fun x h1 h2 => (isStorage_iff x).mpr ?_, .inr fun k hk => ?_⟩
  · rw [ctBase] at h1 h2
    omega
  · rw [Memory.byteAt_write, if_pos (by omega), Nat.add_sub_cancel_left, List.getElem?_eq_getElem (by omega)]
    rfl

theorem Memory.Sound.setElem {m : Memory} (h : m.Sound) (r : ElemIx) (x : Nat) : (m.setElem r x).Sound := by
  have hr := r.isLt
  apply h.write
  rw [InOperandWindow, toBytes_length, elemBase]
  omega

theorem Memory.Sound.setMatrix {m : Memory} (h : m.Sound) {k : Nat} {c : List Nat} (hk : k < 4)
    (hc : c.length ≤ 256) : (m.setMatrix k c).Sound := by
  apply h.write
  rw [InOperandWindow, flatMap_toBytes_length, entryBase]
  omega

theorem Memory.Sound.setMatrices {m : Memory} (h : m.Sound) {k : Nat} {cs : List (List Nat)}
    (hk : k + cs.length ≤ 4) (hc : ∀ c ∈ cs, c.length ≤ 256) : (m.setMatrices k cs).Sound := by
  induction cs generalizing m k with
  | nil => exact h
  | cons c cs ih =>
    rw [List.length_cons] at hk
    obtain ⟨hc, hcs⟩ := List.forall_mem_cons.mp hc
    exact ih (h.setMatrix (by omega) hc) (by omega) hcs

/-- The store of a well-formed command that completes with code OK keeps storage sound. -/
theorem bodyOf_sound {i : Instr} {s : State} {m : Memory} (hi : i.wellFormed = true) (h : bodyOf i s = .ok m)
    (hs : s.mem.Sound) : m.Sound := by
  have helem : ∀ rd, elementDest i = some rd → m.Sound := fun rd hrd => by
    obtain ⟨r, -, rfl⟩ := bodyOf_elementDest hrd h
    exact hs.setElem rd r
  have hd := degree_le s.fsel
  cases i with
  | nop =>
    obtain rfl := Except.ok.inj h
    exact hs
  | matmat md ms1 ms2 =>
    obtain ⟨c, hc, rfl⟩ := bodyOf_matmat h
    exact hs.setMatrix md.isLt (hc ▸ hd)
  | genlayer rd imm8 =>
    obtain ⟨cs, r, hn, hcs, -, rfl⟩ := bodyOf_genlayer h
    simp only [Instr.wellFormed, layerCountOk, Bool.and_eq_true, decide_eq_true_eq] at hi
    exact (hs.setMatrices (by omega) fun c hc => hcs c hc ▸ hd).setElem rd r
  | eval =>
    obtain ⟨bs, hl, rfl⟩ := bodyOf_eval h
    exact hs.writeCt hl
  | fadd rd _ _ | fmul rd _ _ | fexp rd _ _ | fexpm rd _ _ | finv rd _ | vecmat rd _ _ => exact helem rd rfl

/-- The decoder answers commands of R105 alone: GENLAYER's count is checked (R104, R108). -/
theorem wellFormed_of_decode {w : Word} {i : Instr} (h : decode w = .ok i) : i.wellFormed = true := by
  unfold decode at h
  split at h
  · cases h
  · split at h
    · unfold commandOf at h
      split at h
      case h_9 =>
        split at h
        · next hl => cases h; exact hl
        · cases h
      all_goals cases h
      all_goals rfl
    · cases h

/-! ### The invariant, one part of a step at a time -/

theorem State.Inv.sound {s : State} (h : s.Inv) : s.mem.Sound := by
  obtain ⟨hwf, -, -, -, -, hct⟩ := h
  exact ⟨hwf, hct⟩

/-- A completion re-establishes the invariant over any sound storage: nothing else is asked of the state. -/
theorem State.complete_inv {s : State} {m : Memory} (hm : m.Sound) (c : ErrorCode) :
    (State.complete { s with mem := m } c).Inv := by
  refine ⟨hm.1, c.bits_le, by simp, fun _ => rfl, fun _ he => ?_, hm.2⟩
  have hc : c ≠ .ok := fun h => he (c.bits_eq_zero_iff.mpr h)
  simp [hc]

theorem State.completion_inv {s t : State} (hs : s.Inv) (h : s.completion = .next t) : t.Inv := by
  obtain ⟨i, m, hd, hm, rfl⟩ | ⟨c, -, rfl⟩ := State.completion_eq_next h
  · exact State.complete_inv (bodyOf_sound (wellFormed_of_decode hd) hm hs.sound) _
  · exact State.complete_inv hs.sound _

theorem State.tick_inv {s : State} (hs : s.Inv) : s.tick.Inv := by
  obtain ⟨hwf, hcode, hbd, hrem, herr, hct⟩ := hs
  obtain ⟨n, hn, ht⟩ := s.tick_eq
  rw [ht]
  exact ⟨hwf, hcode, hbd, fun hb => by have := hrem hb; simp only; omega, herr, hct⟩

/-- A read changes the fresh count at most, of which the invariant does not speak. -/
theorem State.memRead_inv {s s' : State} {a : PortAddr} {n : Nat} {v : Word} (hs : s.Inv)
    (h : s.memRead a n = .ok (v, s')) : s'.Inv := by
  obtain rfl | ⟨rfl, -⟩ := State.memRead_eq_ok s s' a n v h
  · exact hs
  · exact hs

/-- Everything a write of the control region can do (R41 to R48, R301). -/
theorem State.writeControl_cases (s : State) (a : Nat) (v : Word) :
    s.writeControl a v = s ∨ s.writeControl a v = s.hazard ∨
    (s.status.busy = false ∧ s.writeControl a v = s.issueFresh v) ∨
    s.writeControl a v = { s with status := s.status.clearOnes v } ∨
    ∃ (ie : Bool) (f : FieldSel) (il pl : BitVec 6),
      s.writeControl a v = { s with ie := ie, fsel := f, ivlen := il, ptlen := pl } := by
  generalize hr : s.writeControl a v = r
  unfold State.writeControl at hr
  split at hr
  · split at hr
    · exact .inr (.inl hr.symm)
    · next hb => exact .inr (.inr (.inl ⟨by simpa using hb, hr.symm⟩))
  split at hr
  · exact .inr (.inr (.inr (.inl hr.symm)))
  split at hr
  · exact .inr (.inr (.inr (.inr ⟨_, s.fsel, s.ivlen, s.ptlen, hr.symm⟩)))
  split at hr
  · split at hr
    · exact .inr (.inl hr.symm)
    · exact .inr (.inr (.inr (.inr ⟨s.ie, _, s.ivlen, s.ptlen, hr.symm⟩)))
  split at hr
  · split at hr
    · exact .inr (.inl hr.symm)
    · exact .inr (.inr (.inr (.inr ⟨s.ie, s.fsel, _, s.ptlen, hr.symm⟩)))
  split at hr
  · split at hr
    · exact .inr (.inl hr.symm)
    · exact .inr (.inr (.inr (.inr ⟨s.ie, s.fsel, s.ivlen, _, hr.symm⟩)))
  · exact .inl hr.symm

theorem Status.clearOnes_le (t : Status) (v : Word) : (t.clearOnes v).done = true → t.done = true := by
  rw [Status.clearOnes_done, Bool.and_eq_true]
  exact And.left

theorem State.writeControl_inv {s : State} (hs : s.Inv) (a : Nat) (v : Word) : (s.writeControl a v).Inv := by
  obtain ⟨hwf, hcode, hbd, hrem, herr, hct⟩ := hs
  obtain h | h | ⟨-, h⟩ | h | ⟨ie, f, il, pl, h⟩ := s.writeControl_cases a v <;> rw [h]
  · exact ⟨hwf, hcode, hbd, hrem, herr, hct⟩
  · exact ⟨hwf, hcode, hbd, hrem, herr, hct⟩
  · exact ⟨hwf, hcode, by simp [State.issueFresh], by simp [State.issueFresh], by simp [State.issueFresh], hct⟩
  · exact ⟨hwf, hcode, fun ⟨hb, hd⟩ => hbd ⟨hb, s.status.clearOnes_le v hd⟩, hrem, herr, hct⟩
  · exact ⟨hwf, hcode, hbd, hrem, herr, hct⟩

/-- A host write of storage keeps it sound: an aligned access stays inside one window, and CT_BUF is not one
of those the host can write (R71, R73). -/
theorem Memory.Sound.hostWrite {m : Memory} (h : m.Sound) {a : PortAddr} {n : Nat} (v : Word)
    (hok : accessOk a.toNat n = true)
    (hreg : regionOf a.toNat = .inputBuffer ∨ regionOf a.toNat = .elements ∨ regionOf a.toNat = .matrices) :
    (m.write a.toNat (toBytes n v.toNat)).Sound := by
  have ha := a.isLt
  obtain ⟨hn, hal, -⟩ := (accessOk_iff _ _).mp hok
  apply h.write
  rw [InOperandWindow, toBytes_length]
  generalize a.toNat = x at *
  have hwin : (0x0100 ≤ x ∧ x < 0x0140) ∨ (0x0200 ≤ x ∧ x < 0x0400) ∨ 0x8000 ≤ x := by
    unfold regionOf at hreg
    split_ifs at hreg <;> simp only [or_self] at hreg <;> omega
  rcases hn with rfl | rfl | rfl <;> omega

theorem State.memWrite_inv {s s' : State} {a : PortAddr} {n : Nat} {v : Word} (hs : s.Inv)
    (h : s.memWrite a n v = .ok s') : s'.Inv := by
  obtain rfl | ⟨-, -, rfl⟩ | ⟨-, -, rfl⟩ | ⟨-, -, hok, hreg, rfl⟩ := State.memWrite_eq_ok s s' a n v h
  · exact hs
  · exact hs
  · exact State.writeControl_inv hs _ _
  · have hm := hs.sound.hostWrite v hok hreg
    obtain ⟨-, hcode, hbd, hrem, herr, -⟩ := hs
    exact ⟨hm.1, hcode, hbd, hrem, herr, hm.2⟩

/-- Settles O10: every clause is about reset values alone, and no byte of CT_BUF is written. -/
theorem resetMeetsInvariant : Obligations.ResetMeetsInvariant :=
  ⟨rfl, by decide, by decide, fun _ => rfl, fun _ h => absurd rfl h, .inl fun _ _ => rfl⟩

theorem State.releaseRst_inv {s : State} (hs : s.Inv) : s.releaseRst.Inv := by
  unfold State.releaseRst
  split
  · exact resetMeetsInvariant
  · exact hs

/-- The host's access keeps the invariant; the invariant does not speak of the host's lists. -/
theorem State.perform_inv {s t : State} {op : HostOp} {rest : List HostOp} (hs : s.Inv)
    (h : s.perform op rest = .ok t) : t.Inv := by
  obtain ⟨a, n, v, r, -, hr, rfl⟩ | ⟨a, n, v, r, -, hw, rfl⟩ | ⟨v, r, -, hr, rfl⟩ | ⟨-, rfl⟩ | ⟨-, rfl⟩ |
    ⟨-, rfl⟩ | ⟨-, rfl⟩ := State.perform_eq_ok s t op rest h
  · exact (State.memRead_inv hs hr :)
  · exact (State.memWrite_inv hs hw :)
  · exact (State.memRead_inv hs hr :)
  · exact hs
  · exact hs
  · exact hs
  · exact (State.releaseRst_inv hs :)

/-- A step that is no completion: the cycle passes, and the host makes its next access if it has one (R300). -/
theorem step_of_not_due_eq_next {s t : State} (hd : ¬ Due s) (h : step s = .next t) :
    t = s.tick ∨ ∃ op rest, s.host = op :: rest ∧ s.tick.perform op rest = .ok t := by
  rw [step_of_not_due s (by rwa [← State.completionDue_iff, Bool.not_eq_true] at hd),
    State.hostTurn_eq_next_iff] at h
  obtain ⟨n, -, ht⟩ := s.tick_eq
  have hh : s.tick.host = s.host := by rw [ht]
  rw [hh] at h
  exact h.imp And.right id

/-- Settles O9: a completion and each kind of host access keep the invariant. -/
theorem stepKeepsInvariant : Obligations.StepKeepsInvariant := by
  intro s t hs h
  by_cases hd : Due s
  · rw [step_of_due s ((State.completionDue_iff s).mpr hd)] at h
    exact State.completion_inv hs h
  · obtain rfl | ⟨op, rest, -, hp⟩ := step_of_not_due_eq_next hd h
    · exact State.tick_inv hs
    · exact State.perform_inv (State.tick_inv hs) hp

end Sys2Proof.Machine
end

section
/-! What the commands leave unchanged, and the form of their results (R34, R38, R49, R255). -/

namespace Sys2Proof.Machine

open Sys2Proof

/-- A command changes no register but STATUS and ERRCMD, keeps HZ, and stores its body's storage or nothing
(R254, R255). -/
theorem exec_frame {i : Instr} {s t : State} (h : exec i s = .next t) :
    SameControls s t ∧ t.status.hz = s.status.hz ∧ (bodyOf i s = .ok t.mem ∨ t.mem = s.mem) := by
  obtain ⟨m, hm, rfl⟩ | ⟨c, -, rfl⟩ := exec_eq_next h
  · exact ⟨sameControls_complete s m .ok, rfl, .inl hm⟩
  · exact ⟨sameControls_complete s s.mem c, rfl, .inr rfl⟩

/-- Code 0 says that the body ran to its end (R252, R254). -/
theorem bodyOf_of_exec_ok {i : Instr} {s t : State} (h : exec i s = .next t) (ht : t.status.ecode = 0) :
    bodyOf i s = .ok t.mem := by
  obtain ⟨m, hm, rfl⟩ | ⟨c, hc, rfl⟩ := exec_eq_next h
  · exact hm
  · exact absurd (c.bits_eq_zero_iff.mp ht) hc

theorem Memory.setElem_keptOutside (m : Memory) (r : ElemIx) (x : Nat) :
    KeptOutside m (m.setElem r x) (elemBase r.toNat) 32 := fun y hy =>
  Memory.byteAt_write_outside _ _ _ _ (by rwa [toBytes_length])

theorem Memory.setMatrix_keptOutside (m : Memory) (k : Nat) (c : List Nat) :
    KeptOutside m (m.setMatrix k c) (entryBase k 0) (32 * c.length) := fun y hy =>
  Memory.byteAt_write_outside _ _ _ _ (by rwa [flatMap_toBytes_length])

/-- Matrices stored from M[k] on leave every byte outside their entries. -/
theorem Memory.byteAt_setMatrices {d : Nat} {cs : List (List Nat)} (hd : ∀ c ∈ cs, c.length = d) (m : Memory)
    (k x : Nat) (hx : ∀ j, k ≤ j → j < k + cs.length → x < entryBase j 0 ∨ entryBase j 0 + 32 * d ≤ x) :
    (m.setMatrices k cs).byteAt x = m.byteAt x := by
  induction cs generalizing m k with
  | nil => rfl
  | cons c cs ih =>
    obtain ⟨hc, hcs⟩ := List.forall_mem_cons.mp hd
    simp only [List.length_cons] at hx
    calc ((m.setMatrix k c).setMatrices (k + 1) cs).byteAt x
        = (m.setMatrix k c).byteAt x := ih hcs _ _ fun j h1 h2 => hx j (by omega) (by omega)
      _ = m.byteAt x := Memory.setMatrix_keptOutside m k c x (hc ▸ hx k le_rfl (by omega))

/-- Settles O30: such a command stores one element, in E[RD], or nothing. -/
theorem elementCommandFrame : Obligations.ElementCommandFrame := by
  intro i rd s t hi h
  obtain ⟨hsame, hhz, hm | hm⟩ := exec_frame h
  · obtain ⟨r, -, hr⟩ := bodyOf_elementDest hi hm
    rw [hr]
    exact ⟨Memory.setElem_keptOutside _ _ _, hsame, hhz⟩
  · exact ⟨fun x _ => by rw [hm], hsame, hhz⟩

/-- Settles O31: MATMAT stores d entries, in M[MD], or nothing. -/
theorem matmatFrame : Obligations.MatmatFrame := by
  intro md ms1 ms2 s t h
  obtain ⟨hsame, hhz, hm | hm⟩ := exec_frame h
  · obtain ⟨c, hc, hr⟩ := bodyOf_matmat hm
    rw [hr, ← hc]
    exact ⟨Memory.setMatrix_keptOutside _ _ _, hsame, hhz⟩
  · exact ⟨fun x _ => by rw [hm], hsame, hhz⟩

/-- Settles O32: GENLAYER stores d entries in each of M[0..s-1] and one element in E[RD], or nothing. -/
theorem genlayerFrame : Obligations.GenlayerFrame := by
  intro rd imm8 s t h
  obtain ⟨hsame, hhz, hm | hm⟩ := exec_frame h
  · refine ⟨hsame, hhz, fun x hmat helem => ?_⟩
    obtain ⟨cs, r, hn, hcs, -, hr⟩ := bodyOf_genlayer hm
    calc t.mem.byteAt x
        = (s.mem.setMatrices 0 cs).byteAt x := by rw [hr]; exact Memory.setElem_keptOutside _ _ _ x helem
      _ = s.mem.byteAt x := Memory.byteAt_setMatrices hcs _ _ _ fun j _ hj => hmat j (by omega)
  · exact ⟨hsame, hhz, fun x _ _ => by rw [hm]⟩

/-- Settles O34: the last store of such a command is all 32 bytes of E[RD], with a field element. -/
theorem fieldResultIsZeroExtended : Obligations.FieldResultIsZeroExtended := by
  intro i rd s t hi h ht
  have hstore : ∃ (m : Memory) (r : Nat), r < 2 ^ s.fsel.degree ∧ t.mem = m.setElem rd r := by
    have hm := bodyOf_of_exec_ok h ht
    obtain hi | ⟨imm8, rfl⟩ := hi
    · exact ⟨s.mem, bodyOf_elementDest hi hm⟩
    · obtain ⟨cs, r, -, -, hr, hmem⟩ := bodyOf_genlayer hm
      exact ⟨_, r, hr, hmem⟩
  obtain ⟨m, r, hr, hmem⟩ := hstore
  have hread := Memory.readBytes_write_same m (elemBase rd.toNat) (toBytes 32 r)
  rw [toBytes_length] at hread
  exact ⟨r, hr, by rw [hmem]; exact hread⟩

/-! ### Operands out of range, and unwritten operands (R33, R35, R37) -/

/-- A body that raises an error code completes with it (R254). -/
theorem exec_of_raise {i : Instr} {s : State} {c : ErrorCode} (h : bodyOf i s = .error (.raise c)) :
    ∃ t, exec i s = .next t ∧ FailedWith c.bits s t :=
  ⟨s.complete c, by rw [exec_eq_finish, h, State.finish_raise],
    failedWith_complete s (bodyOf_raise_ne_ok i s c h)⟩

theorem exec_of_fault {i : Instr} {s : State} {f : Fault} (h : bodyOf i s = .error (.fault f)) :
    exec i s = .fault f := by
  rw [exec_eq_finish, h, State.finish_fault]

theorem validOperand_eq_false {f : FieldSel} {x : Nat} (h : 2 ^ f.degree ≤ x) : validOperand f x = false := by
  simpa [validOperand] using h

theorem validMatrix_eq_false {f : FieldSel} {a : List Nat} (h : ∃ x ∈ a, 2 ^ f.degree ≤ x) :
    validMatrix f a = false := by
  obtain ⟨x, hx, hle⟩ := h
  exact List.all_eq_false.mpr ⟨x, hx, by simp [validOperand_eq_false hle]⟩

theorem validMatrix_append (f : FieldSel) (a b : List Nat) :
    validMatrix f (a ++ b) = (validMatrix f a && validMatrix f b) := List.all_append

/-- Settles O35: with the operands read, the range check fails, before FEXP and FINV ask for a nonzero operand. -/
theorem elementOutOfRange : Obligations.ElementOutOfRange := by
  refine ⟨fun s rd rs1 rs2 x y hx hy => ⟨fun hxy => ?_, fun hle => ?_⟩, fun s rd rs1 imm8 x hx hle => ?_,
    fun s rd rs1 ms1 x m hx hm hle => ?_⟩
  · have hbad : (validOperand s.fsel x && validOperand s.fsel y) = false := by
      rw [Bool.and_eq_false_iff]
      exact hxy.imp validOperand_eq_false validOperand_eq_false
    exact ⟨exec_of_raise (c := .operandRange) (by simp [bodyOf, faddBody, State.fetchElem, hx, hy, hbad]),
      exec_of_raise (c := .operandRange) (by simp [bodyOf, fmulBody, State.fetchElem, hx, hy, hbad])⟩
  · exact exec_of_raise (c := .operandRange)
      (by simp [bodyOf, fexpBody, State.fetchElem, hx, hy, validOperand_eq_false hle])
  · have hbad := validOperand_eq_false hle
    exact ⟨exec_of_raise (c := .operandRange) (by simp [bodyOf, fexpmBody, State.fetchElem, hx, hbad]),
      exec_of_raise (c := .operandRange) (by simp [bodyOf, finvBody, State.fetchElem, hx, hbad])⟩
  · exact exec_of_raise (c := .operandRange) (by
      simp [bodyOf, vecmatBody, State.fetchElem, State.fetchMatrix, hx, hm, validOperand_eq_false hle])

/-- Settles O36: VECMAT's matrix check follows a vector check that fails with the same code, and MATMAT checks A,
then B. -/
theorem matrixOutOfRange : Obligations.MatrixOutOfRange := by
  refine ⟨fun s rd rs1 ms1 v a hv ha hbad => exec_of_raise (c := .operandRange) ?_,
    fun s md ms1 ms2 a b ha hb hbad => exec_of_raise (c := .operandRange) ?_⟩
  · have hbad := validMatrix_eq_false hbad
    cases hvv : validOperand s.fsel v <;>
      simp [bodyOf, vecmatBody, State.fetchElem, State.fetchMatrix, hv, ha, hvv, hbad]
  · have hbad : validMatrix s.fsel (a ++ b) = false := validMatrix_eq_false hbad
    rw [validMatrix_append, Bool.and_eq_false_iff] at hbad
    obtain hA | hB := hbad
    · simp [bodyOf, matmatBody, State.fetchMatrix, ha, hb, hA]
    · cases hA : validMatrix s.fsel a <;> simp [bodyOf, matmatBody, State.fetchMatrix, ha, hb, hA, hB]

theorem Memory.readBytes_eq_none {m : Memory} {a n : Nat} (h : ∃ k, k < n ∧ m.byteAt (a + k) = none) :
    m.readBytes a n = none := by
  obtain ⟨k, hk, hnone⟩ := h
  rw [Option.eq_none_iff_forall_ne_some]
  intro bs hbs
  obtain ⟨hl, hbytes⟩ := (Memory.readBytes_eq_some_iff _ _ _ _).mp hbs
  have hlen := List.getElem?_eq_none_iff.mp ((hbytes k hk).symm.trans hnone)
  omega

theorem State.fetchElem_unwritten {s : State} {r : ElemIx}
    (h : ∃ k, k < 32 ∧ s.mem.byteAt (elemBase r.toNat + k) = none) :
    s.fetchElem r = .error (.fault .unwrittenRead) := by
  rw [State.fetchElem, Memory.elem, Memory.readBytes_eq_none h]
  rfl

theorem State.fetchBuffer_unwritten {s : State} {base n : Nat}
    (h : ∃ k, k < n ∧ s.mem.byteAt (base + k) = none) :
    s.fetchBuffer base n = .error (.fault .unwrittenRead) := by
  rw [State.fetchBuffer, Memory.readBytes_eq_none h, fetched_none]

/-- A byte of a matrix operand lies in one of its entries (R76). -/
theorem State.fetchMatrix_unwritten {s : State} {k : MatIx}
    (h : ∃ j, j < 32 * s.fsel.degree ∧ s.mem.byteAt (entryBase k.toNat 0 + j) = none) :
    s.fetchMatrix k = .error (.fault .unwrittenRead) := by
  obtain ⟨j, hj, hnone⟩ := h
  have hmat : s.mem.matrix k.toNat s.fsel.degree = none := by
    rw [Option.eq_none_iff_forall_ne_some, Memory.matrix_eq_entries]
    intro a ha
    obtain ⟨hl, hentry⟩ := (Memory.entries_eq_some_iff _ _ _ _).mp ha
    have hread : s.mem.readBytes (entryBase k.toNat 0 + 32 * (j / 32)) 32 = none :=
      Memory.readBytes_eq_none ⟨j % 32, by omega, by
        rwa [show entryBase k.toNat 0 + 32 * (j / 32) + j % 32 = entryBase k.toNat 0 + j by omega]⟩
    have hj32 := hentry (j / 32) (by omega)
    rw [hread, Option.map_none] at hj32
    have hlen := List.getElem?_eq_none_iff.mp hj32.symm
    omega
  rw [State.fetchMatrix, hmat, fetched_none]

/-- A read before an unwritten one can only stop with the same fault: no check comes between (log 9). -/
theorem fetched_bind_fault {α β : Type} (o : Option α) (f : α → Except Stop β)
    (h : ∀ a, f a = .error (.fault .unwrittenRead)) : (fetched o >>= f) = .error (.fault .unwrittenRead) := by
  cases o with
  | none => rfl
  | some a => exact h a

/-- EVAL with both lengths those of one field reads the buffers, evaluates and stores (R230). -/
theorem evalBody_of_lengths {s : State} {f : FieldSel} (hp : s.ptlen.toNat = f.bytes)
    (hl : s.ivlen.toNat = f.bytes) :
    evalBody s = (do
      let pt ← s.fetchBuffer ptBase f.bytes
      let iv ← s.fetchBuffer ivBase f.bytes
      pure (s.mem.write ctBase (aimEval f (xofStream iv) pt ++ List.replicate (32 - f.bytes) 0))) := by
  have hv := (variantOfLength_eq_some_iff f.bytes f).mpr rfl
  simp [evalBody, hp, hl, hv]

/-- Settles O39: every read of a body comes before its range checks, and a read of an unwritten byte is the fault
(R35; log 9). -/
theorem unwrittenOperandFaults : Obligations.UnwrittenOperandFaults := by
  refine ⟨fun s rd rs1 rs2 h => ?_, fun s rd rs1 imm8 ms1 h => ?_, fun s md ms1 ms2 rd rs1 h => ?_,
    fun s rd imm8 hl h => ?_, fun s f hp hl h => ?_⟩
  · obtain h | h := h
    · have h := State.fetchElem_unwritten h
      exact ⟨exec_of_fault (by simp [bodyOf, faddBody, h]), exec_of_fault (by simp [bodyOf, fmulBody, h]),
        exec_of_fault (by simp [bodyOf, fexpBody, h])⟩
    · have h := State.fetchElem_unwritten h
      exact ⟨exec_of_fault (fetched_bind_fault _ _ fun _ => by simp [h]),
        exec_of_fault (fetched_bind_fault _ _ fun _ => by simp [h]),
        exec_of_fault (fetched_bind_fault _ _ fun _ => by simp [h])⟩
  · have h := State.fetchElem_unwritten h
    exact ⟨exec_of_fault (by simp [bodyOf, fexpmBody, h]), exec_of_fault (by simp [bodyOf, finvBody, h]),
      exec_of_fault (by simp [bodyOf, vecmatBody, h])⟩
  · have h := State.fetchMatrix_unwritten h
    exact ⟨exec_of_fault (fetched_bind_fault _ _ fun _ => by simp [h]),
      exec_of_fault (by simp [bodyOf, matmatBody, h]),
      exec_of_fault (fetched_bind_fault _ _ fun _ => by simp [h])⟩
  · have h := State.fetchBuffer_unwritten h
    exact exec_of_fault (by simp [bodyOf, genlayerBody, hl, h])
  · obtain ⟨k, hk, hiv | hpt⟩ := h
    · have h := State.fetchBuffer_unwritten ⟨k, hk, hiv⟩
      refine exec_of_fault ((evalBody_of_lengths hp hl).trans (fetched_bind_fault _ _ fun _ => ?_))
      rw [h, error_bind]
    · have h := State.fetchBuffer_unwritten ⟨k, hk, hpt⟩
      refine exec_of_fault ((evalBody_of_lengths hp hl).trans ?_)
      rw [h, error_bind]

end Sys2Proof.Machine
end

section
/-! The control registers at the host port, ERRCMD, IRQ, and the values after reset (R41 to R52). -/

namespace Sys2Proof.Machine

open Sys2Proof

/-! ### Accesses to the control region -/

theorem accessOk_word {a : Nat} (hal : a % 4 = 0) : accessOk a 4 = true :=
  (accessOk_iff _ _).mpr ⟨.inr (.inr rfl), hal, fun _ => rfl⟩

section
variable {s : State} (hr : s.rst = false) {a : PortAddr} (ha : a.toNat < 0x0100) (hal : a.toNat % 4 = 0)
include hr ha hal

theorem State.memRead_control : s.memRead a 4 = .ok (s.readControl a.toNat, s) := by
  simp [State.memRead, accessOk_word hal, hr, regionOf, ha]

theorem State.memWrite_control (v : Word) : s.memWrite a 4 v = .ok (s.writeControl a.toNat v) := by
  simp [State.memWrite, accessOk_word hal, hr, regionOf, ha]

end

theorem State.readControl_reserved (s : State) {a : Nat} (h : 0x1C ≤ a) : s.readControl a = 0 := by
  unfold State.readControl
  iterate 7 rw [if_neg (by omega)]

theorem State.writeControl_ignored (s : State) {a : Nat} (h : 0x18 ≤ a) (v : Word) : s.writeControl a v = s := by
  unfold State.writeControl
  iterate 6 rw [if_neg (by omega)]

/-- Settles O44: none of the seven registers stands at such an offset. -/
theorem reservedControlOffsets : Obligations.ReservedControlOffsets := by
  intro s a v hr hlo hhi hal
  rw [State.memRead_control hr (by omega) hal, State.memWrite_control hr (by omega) hal,
    State.readControl_reserved s hlo, State.writeControl_ignored s (by omega)]
  exact ⟨rfl, rfl⟩

/-- Settles O45: CTRL holds the bit IE alone. -/
theorem ctrlRegister : Obligations.CtrlRegister := by
  refine ⟨fun s v hr => ⟨State.memWrite_control hr (by decide) (by decide) v, ?_⟩, rfl⟩
  have hread : s.readControl 0x08 = if s.ie then 1 else 0 := by
    cases hie : s.ie <;> simp [State.readControl, hie]
  rw [← hread]
  exact State.memRead_control hr (by decide) (by decide)

/-- SEL is the number in the low two bits of the value written (R44). -/
theorem setWidth_two_of_mod {v : Word} {k : Nat} (h : v.toNat % 4 = k) : v.setWidth 2 = BitVec.ofNat 2 k := by
  apply BitVec.eq_of_toNat_eq
  rw [BitVec.toNat_setWidth, BitVec.toNat_ofNat]
  omega

theorem State.writeControl_fsel {s : State} (hb : s.status.busy = false) (v : Word) :
    s.writeControl 0x0C v = { s with fsel := fieldOfSel s.fsel (v.setWidth 2) } := by
  simp [State.writeControl, hb]

theorem State.writeControl_ivlen {s : State} (hb : s.status.busy = false) (v : Word) :
    s.writeControl 0x10 v = { s with ivlen := BitVec.ofNat 6 v.toNat } := by
  simp [State.writeControl, hb]

theorem State.writeControl_ptlen {s : State} (hb : s.status.busy = false) (v : Word) :
    s.writeControl 0x14 v = { s with ptlen := BitVec.ofNat 6 v.toNat } := by
  simp [State.writeControl, hb]

/-- Settles O46: FSEL by the value of SEL, IVLEN and PTLEN by their six bits. -/
theorem parameterRegisters : Obligations.ParameterRegisters := by
  intro s v hr hb
  have hfsel : ∀ k, v.toNat % 4 = k →
      s.memWrite 0x000C 4 v = .ok { s with fsel := fieldOfSel s.fsel (BitVec.ofNat 2 k) } := fun k hk => by
    rw [← setWidth_two_of_mod hk, ← State.writeControl_fsel hb]
    exact State.memWrite_control hr (by decide) (by decide) v
  refine ⟨hfsel 0, hfsel 1, hfsel 2, hfsel 3, State.memRead_control hr (by decide) (by decide), ?_, ?_, ?_, ?_⟩
  · rw [← State.writeControl_ivlen hb]
    exact State.memWrite_control hr (by decide) (by decide) v
  · rw [BitVec.ofNat_toNat]
    exact State.memRead_control hr (by decide) (by decide)
  · rw [← State.writeControl_ptlen hb]
    exact State.memWrite_control hr (by decide) (by decide) v
  · rw [BitVec.ofNat_toNat]
    exact State.memRead_control hr (by decide) (by decide)

theorem Status.word_flags (t : Status) : t.word.getLsbD 0 = t.busy ∧ t.word.getLsbD 1 = t.done ∧
    t.word.getLsbD 2 = t.err ∧ t.word.getLsbD 3 = t.hz := by
  simp [Status.word]

/-- ECODE's place in the word and the zeros above it, over STATUS's 256 values. -/
theorem Status.word_ecode (t : Status) : t.word.extractLsb' 4 4 = t.ecode ∧ t.word.extractLsb' 8 24 = 0 := by
  obtain ⟨busy, done, err, hz, ecode⟩ := t
  revert busy done err hz ecode
  decide

theorem and_not_eq_ite (x b : Bool) : (x && !b) = if b then false else x := by
  cases b <;> simp

/-- Settles O47: STATUS is read as `Status.word`, and a write is `Status.clearOnes`, BUSY or not. -/
theorem statusRegister : Obligations.StatusRegister := by
  intro s v hr
  obtain ⟨hbusy, hdone, herr, hhz⟩ := s.status.word_flags
  obtain ⟨hecode, hzero⟩ := s.status.word_ecode
  refine ⟨⟨s.status.word, State.memRead_control hr (by decide) (by decide), hbusy, hdone, herr, hhz, hecode,
    hzero⟩, ?_⟩
  simp only [← and_not_eq_ite]
  exact State.memWrite_control hr (by decide) (by decide) v

/-! ### ERRCMD, IRQ, reset -/

theorem State.writeControl_errcmd (s : State) (a : Nat) (v : Word) : (s.writeControl a v).errcmd = s.errcmd := by
  obtain h | h | ⟨-, h⟩ | h | ⟨ie, f, il, pl, h⟩ := s.writeControl_cases a v <;> rw [h] <;> rfl

theorem State.memRead_errcmd {s s' : State} {a : PortAddr} {n : Nat} {v : Word}
    (h : s.memRead a n = .ok (v, s')) : s'.errcmd = s.errcmd := by
  obtain rfl | ⟨rfl, -⟩ := State.memRead_eq_ok s s' a n v h <;> rfl

theorem State.memWrite_errcmd {s s' : State} {a : PortAddr} {n : Nat} {v : Word}
    (h : s.memWrite a n v = .ok s') : s'.errcmd = s.errcmd := by
  obtain rfl | ⟨-, -, rfl⟩ | ⟨-, -, rfl⟩ | ⟨-, -, -, -, rfl⟩ := State.memWrite_eq_ok s s' a n v h
  · rfl
  · rfl
  · exact s.writeControl_errcmd _ _
  · rfl

/-- Out of RST no turn of the host writes ERRCMD (R47): the one that would is the deassertion. -/
theorem State.perform_errcmd {s t : State} {op : HostOp} {rest : List HostOp} (hr : s.rst = false)
    (h : s.perform op rest = .ok t) : t.errcmd = s.errcmd := by
  obtain ⟨a, n, v, r, -, hm, rfl⟩ | ⟨a, n, v, r, -, hm, rfl⟩ | ⟨v, r, -, hm, rfl⟩ | ⟨-, rfl⟩ | ⟨-, rfl⟩ |
    ⟨-, rfl⟩ | ⟨-, rfl⟩ := State.perform_eq_ok s t op rest h
  · exact (State.memRead_errcmd hm :)
  · exact (State.memWrite_errcmd hm :)
  · exact (State.memRead_errcmd hm :)
  · rfl
  · rfl
  · rfl
  · simp [State.releaseRst, hr]

/-- A write to ERRCMD is ignored, with RST asserted or not (R47). -/
theorem State.memWrite_errcmd_ignored (s : State) (v : Word) : s.memWrite 0x18 4 v = .ok s := by
  cases hr : s.rst with
  | false =>
    rw [State.memWrite_control hr (by decide) (by decide), State.writeControl_ignored s (by decide)]
  | true => simp [State.memWrite, accessOk, hr]

/-- Settles O12: `State.complete` alone writes ERRCMD. -/
theorem errcmdRule : Obligations.ErrcmdRule := by
  refine ⟨fun s t hd h => ?_, fun s t hd hr _ h => ?_, State.memWrite_errcmd_ignored,
    fun s hr => State.memRead_control hr (by decide) (by decide), rfl⟩
  · obtain ⟨m, c, rfl⟩ := step_of_due_eq_next hd h
    rw [State.complete_status, Status.afterCompletion_ecode, State.complete_errcmd, ne_eq, c.bits_eq_zero_iff]
    exact ⟨fun hc => if_neg hc, fun hc => if_pos hc⟩
  · obtain ⟨n, -, htick⟩ := s.tick_eq
    obtain ht | ⟨op, rest, -, hp⟩ := step_of_not_due_eq_next hd h
    · rw [ht, htick]
    · rw [htick] at hp
      exact (State.perform_errcmd (s := { s with remaining := n }) hr hp :)

/-- Settles O16: every completion sets DONE, and IRQ is IE and DONE. -/
theorem irqLevel : Obligations.IrqLevel := by
  refine ⟨fun s t hd h => ?_, fun s v hr hv => ?_, fun s s' v hr h => ?_⟩
  · obtain ⟨m, c, rfl⟩ := step_of_due_eq_next hd h
    simp [State.irq]
  · refine ⟨_, State.memWrite_control hr (by decide) (by decide) v, ?_⟩
    simp [State.irq, State.writeControl, hv]
  · rw [State.memWrite_control hr (by decide) (by decide)] at h
    rw [← Except.ok.inj h]
    rfl

/-- Settles O17: each register is read through the port, and no byte is listed in storage. -/
theorem resetValues : Obligations.ResetValues := by
  refine ⟨?_, rfl, rfl, rfl, fun _ => rfl⟩
  simp only [List.forall_mem_cons]
  refine ⟨?_, ?_, ?_, ?_, ?_, ?_, ?_, by simp⟩ <;> exact State.memRead_control rfl (by decide) (by decide)

end Sys2Proof.Machine
end

section
/-! The host port by cases of its address: faults outside the contract, storage written and read back, writes made
twice, what a busy engine holds (R71 to R81, R85); and the serialisation laws (R21, R87). -/

namespace Sys2Proof.Machine

open Sys2Proof

/-! ### Writes and reads, by the address map (R73) -/

/-- What a write within the host contract leaves while RST is not asserted (R78). -/
def State.afterWrite (s : State) (a n : Nat) (v : Word) : State :=
  match regionOf a with
  | .control => s.writeControl a v
  | .reserved | .ctBuffer => s
  | .inputBuffer | .elements | .matrices =>
    if s.status.busy then s.hazard else { s with mem := s.mem.write a (toBytes n v.toNat) }

theorem accessOk_eq_false_iff (a n : Nat) : accessOk a n = false ↔ ¬ InContract a n := by
  rw [← accessOk_iff, Bool.not_eq_true]

section
variable {s : State} {a : PortAddr} {n : Nat}

theorem State.memWrite_of_not_inContract (h : ¬ InContract a.toNat n) (v : Word) :
    s.memWrite a n v = .error .hostAccess := by
  simp [State.memWrite, (accessOk_eq_false_iff _ _).mpr h]

theorem State.memRead_of_not_inContract (h : ¬ InContract a.toNat n) : s.memRead a n = .error .hostAccess := by
  simp [State.memRead, (accessOk_eq_false_iff _ _).mpr h]

/-- A write within the contract always succeeds (R71, R78). -/
theorem State.memWrite_of_inContract (h : InContract a.toNat n) (v : Word) :
    s.memWrite a n v = .ok (if s.rst then s else s.afterWrite a.toNat n v) := by
  unfold State.memWrite State.afterWrite
  rw [(accessOk_iff _ _).mpr h]
  cases s.rst with
  | true => rfl
  | false => cases regionOf a.toNat <;> cases s.status.busy <;> rfl

/-- HostAccess is no answer to a read within the contract (R71). -/
theorem State.memRead_ne_hostAccess (h : InContract a.toNat n) : s.memRead a n ≠ .error .hostAccess := by
  unfold State.memRead
  rw [(accessOk_iff _ _).mpr h]
  cases s.rst with
  | true => simp
  | false => cases regionOf a.toNat <;> cases s.status.busy <;> cases s.mem.readBytes a.toNat n <;> simp

end

/-- Settles O40: HostAccess is the answer to exactly the accesses that `accessOk` refuses. -/
theorem hostAccessFault : Obligations.HostAccessFault := fun _ _ _ v =>
  ⟨fun h => ⟨State.memRead_of_not_inContract h, State.memWrite_of_not_inContract h v⟩,
    fun h => ⟨State.memRead_ne_hostAccess h, _, State.memWrite_of_inContract h v⟩⟩

/-! ### Storage through the port while IDLE (R35, R72, R77, R78) -/

theorem regionOf_operand {a : Nat}
    (h : (0x0100 ≤ a ∧ a < 0x0140) ∨ (0x0200 ≤ a ∧ a < 0x0400) ∨ 0x8000 ≤ a) :
    regionOf a = .inputBuffer ∨ regionOf a = .elements ∨ regionOf a = .matrices := by
  unfold regionOf
  split_ifs <;> simp <;> omega

theorem regionOf_storage {a : Nat}
    (h : (0x0100 ≤ a ∧ a < 0x0160) ∨ (0x0200 ≤ a ∧ a < 0x0400) ∨ 0x8000 ≤ a) :
    regionOf a ≠ .control ∧ regionOf a ≠ .reserved := by
  unfold regionOf
  split_ifs <;> simp <;> omega

/-- While IDLE the host stores the low bytes of its value in IV_BUF, PT_BUF, E and M (R78). -/
theorem State.memWrite_operand {s : State} (hr : s.rst = false) (hb : s.status.busy = false) {a : PortAddr} {n : Nat}
    (hc : InContract a.toNat n)
    (hw : (0x0100 ≤ a.toNat ∧ a.toNat < 0x0140) ∨ (0x0200 ≤ a.toNat ∧ a.toNat < 0x0400) ∨ 0x8000 ≤ a.toNat)
    (v : Word) : s.memWrite a n v = .ok { s with mem := s.mem.write a.toNat (toBytes n v.toNat) } := by
  rw [State.memWrite_of_inContract hc]
  obtain h | h | h := regionOf_operand hw <;> simp [State.afterWrite, h, hr, hb]

/-- While IDLE a read of storage is the value of its bytes, or the fault where one of them is unwritten (R35, R77). -/
theorem State.memRead_storage {s : State} (hr : s.rst = false) (hb : s.status.busy = false) {a : PortAddr} {n : Nat}
    (hc : InContract a.toNat n)
    (hw : (0x0100 ≤ a.toNat ∧ a.toNat < 0x0160) ∨ (0x0200 ≤ a.toNat ∧ a.toNat < 0x0400) ∨ 0x8000 ≤ a.toNat) :
    s.memRead a n = (s.mem.readBytes a.toNat n).elim (.error .unwrittenRead)
      fun bs => .ok (BitVec.ofNat 32 (fromBytes bs), s) := by
  obtain ⟨hcontrol, hreserved⟩ := regionOf_storage hw
  unfold State.memRead
  rw [(accessOk_iff _ _).mpr hc, hr, hb]
  cases h : regionOf a.toNat with
  | control => exact absurd h hcontrol
  | reserved => exact absurd h hreserved
  | inputBuffer | ctBuffer | elements | matrices => cases s.mem.readBytes a.toNat n <;> rfl

/-- Bytes that stand little-endian in storage are read as the string of their value (R21, R72). -/
theorem Memory.readBytes_eq_toBytes {m : Memory} {a n x : Nat}
    (h : ∀ k, k < n → m.byteAt (a + k) = some (BitVec.ofNat 8 (x >>> (8 * k)))) :
    m.readBytes a n = some (toBytes n x) :=
  (Memory.readBytes_eq_some_iff _ _ _ _).mpr
    ⟨toBytes_length n x, fun k hk => by rw [h k hk, toBytes_getElem? n x k hk]⟩

theorem Memory.readBytes_write_toBytes (m : Memory) (a n x : Nat) :
    (m.write a (toBytes n x)).readBytes a n = some (toBytes n x) := by
  have h := Memory.readBytes_write_same m a (toBytes n x)
  rwa [toBytes_length] at h

theorem Memory.byteAt_write_toBytes (m : Memory) (a : Nat) {n k : Nat} (x : Nat) (hk : k < n) :
    (m.write a (toBytes n x)).byteAt (a + k) = some (BitVec.ofNat 8 (x >>> (8 * k))) := by
  rw [Memory.byteAt_write, if_pos (by rw [toBytes_length]; omega), Nat.add_sub_cancel_left, toBytes_getElem? n x k hk]

/-- Settles O41: an idle port stores the bytes of the value written, and reads the value of the bytes stored. -/
theorem writeThenRead : Obligations.WriteThenRead := by
  intro s a n hr hb hc
  refine ⟨fun v hw => ?_, fun hw => ⟨fun w hlt hbytes => ?_, fun hnone => ?_⟩⟩
  · refine ⟨_, State.memWrite_operand hr hb hc hw v, ?_, fun x hx => ?_, rfl,
      fun k hk => Memory.byteAt_write_toBytes _ _ _ hk⟩
    · rw [State.memRead_storage (by exact hr) (by exact hb) hc (by omega)]
      simp only [Memory.readBytes_write_toBytes, Option.elim_some, fromBytes_toBytes]
    · exact Memory.byteAt_write_outside _ _ _ _ (by rwa [toBytes_length])
  · rw [State.memRead_storage hr hb hc hw, Memory.readBytes_eq_toBytes hbytes, Option.elim_some,
      fromBytes_toBytes_of_lt _ _ hlt, BitVec.ofNat_toNat, BitVec.setWidth_eq]
  · rw [State.memRead_storage hr hb hc hw, Memory.readBytes_eq_none hnone, Option.elim_none]

/-! ### A write made twice (R81) -/

theorem Memory.filter_lt_eq_nil {m : Memory} {a : Nat} (h : ∀ c ∈ m, a ≤ c.1) :
    m.filter (fun c => decide (c.1 < a)) = [] :=
  List.filter_eq_nil_iff.mpr fun c hc => by simpa using h c hc

theorem Memory.filter_ge_eq_nil {m : Memory} {a : Nat} (h : ∀ c ∈ m, c.1 < a) :
    m.filter (fun c => decide (a ≤ c.1)) = [] :=
  List.filter_eq_nil_iff.mpr fun c hc => by simpa using h c hc

/-- Storing the same bytes again leaves the list of cells as it is: the low part, the bytes and the high part of a
write hold only addresses of their own range. -/
theorem Memory.write_write_same (m : Memory) (a : Nat) (bs : List Byte) :
    (m.write a bs).write a bs = m.write a bs := by
  have hcells := mem_cellsFrom bs a
  have hlow : ∀ c ∈ m.filter (fun c => decide (c.1 < a)), c.1 < a + bs.length := fun c hc => by
    have := of_decide_eq_true (List.mem_filter.mp hc).2
    omega
  have hhigh : ∀ c ∈ m.filter (fun c => decide (a + bs.length ≤ c.1)), a ≤ c.1 := fun c hc => by
    have := of_decide_eq_true (List.mem_filter.mp hc).2
    omega
  unfold Memory.write
  simp only [List.filter_append, Memory.filter_lt_eq_nil fun c hc => (hcells c hc).1,
    Memory.filter_ge_eq_nil fun c hc => (hcells c hc).2, Memory.filter_ge_eq_nil hlow, Memory.filter_lt_eq_nil hhigh,
    List.append_nil, List.nil_append, List.filter_filter, Bool.and_self]

theorem fieldOfSel_twice (f : FieldSel) (sel : BitVec 2) : fieldOfSel (fieldOfSel f sel) sel = fieldOfSel f sel := by
  unfold fieldOfSel
  split_ifs <;> rfl

theorem Status.clearOnes_twice (t : Status) (v : Word) : (t.clearOnes v).clearOnes v = t.clearOnes v := by
  simp [Status.clearOnes]

theorem State.hazard_twice (s : State) : s.hazard.hazard = s.hazard := rfl

theorem State.writeControl_rst (s : State) (a : Nat) (v : Word) : (s.writeControl a v).rst = s.rst := by
  obtain h | h | ⟨-, h⟩ | h | ⟨ie, f, il, pl, h⟩ := s.writeControl_cases a v <;> rw [h] <;> rfl

/-- No register but CMD changes BUSY, so a second write takes the branch of the first, and stores what is stored. -/
theorem State.writeControl_twice (s : State) {a : Nat} (ha : a ≠ 0) (v : Word) :
    (s.writeControl a v).writeControl a v = s.writeControl a v := by
  by_cases hreg : a = 0x04 ∨ a = 0x08 ∨ a = 0x0C ∨ a = 0x10 ∨ a = 0x14
  · obtain rfl | rfl | rfl | rfl | rfl := hreg <;> cases hb : s.status.busy <;>
      simp [State.writeControl, hb, Status.clearOnes_twice, fieldOfSel_twice, State.hazard_twice]
  · have hignored : s.writeControl a v = s := by
      simp only [not_or] at hreg
      simp [State.writeControl, ha, hreg]
    rw [hignored, hignored]

theorem State.afterWrite_rst (s : State) (a n : Nat) (v : Word) : (s.afterWrite a n v).rst = s.rst := by
  unfold State.afterWrite
  cases regionOf a with
  | control => exact s.writeControl_rst a v
  | reserved | ctBuffer => rfl
  | inputBuffer | elements | matrices => cases s.status.busy <;> rfl

theorem State.afterWrite_twice (s : State) {a : Nat} (ha : a ≠ 0) (n : Nat) (v : Word) :
    (s.afterWrite a n v).afterWrite a n v = s.afterWrite a n v := by
  unfold State.afterWrite
  cases regionOf a with
  | control => exact s.writeControl_twice ha v
  | reserved | ctBuffer => rfl
  | inputBuffer | elements | matrices =>
    cases hb : s.status.busy <;> simp [hb, Memory.write_write_same, State.hazard_twice]

/-- Settles O49: the second write meets the same contract and the same RST, and what it leaves is there already. -/
theorem writesAreIdempotent : Obligations.WritesAreIdempotent := by
  intro s s' a n v ha h
  by_cases hc : InContract a.toNat n
  · have ha' : a.toNat ≠ 0 := fun h0 => ha (BitVec.eq_of_toNat_eq h0)
    rw [State.memWrite_of_inContract hc] at h ⊢
    obtain rfl := Except.ok.inj h
    cases hr : s.rst <;> simp [hr, State.afterWrite_rst, State.afterWrite_twice s ha']
  · rw [State.memWrite_of_not_inContract hc] at h
    cases h

/-! ### The engine's operands while BUSY (R78, R80, R85) -/

/-- `t` has a command in progress with the word, the parameters and the storage of `s`. -/
def HoldsCommand (s t : State) : Prop :=
  t.mem = s.mem ∧ t.cmd = s.cmd ∧ t.fsel = s.fsel ∧ t.ivlen = s.ivlen ∧ t.ptlen = s.ptlen ∧ t.status.busy = true

section
variable {s : State} (hb : s.status.busy = true)
include hb

theorem HoldsCommand.refl : HoldsCommand s s := ⟨rfl, rfl, rfl, rfl, rfl, hb⟩

theorem State.memRead_holdsCommand {s' : State} {a : PortAddr} {n : Nat} {v : Word}
    (h : s.memRead a n = .ok (v, s')) : HoldsCommand s s' := by
  obtain rfl | ⟨rfl, -⟩ := State.memRead_eq_ok s s' a n v h <;> exact HoldsCommand.refl hb

/-- A write to CMD, FSEL, IVLEN or PTLEN is a hazard while BUSY; no other write of the control region touches a
command's word or parameters (R301). -/
theorem State.writeControl_holdsCommand (a : Nat) (v : Word) : HoldsCommand s (s.writeControl a v) := by
  simp only [State.writeControl, hb, if_true]
  split_ifs <;> exact HoldsCommand.refl hb

theorem State.memWrite_holdsCommand {s' : State} {a : PortAddr} {n : Nat} {v : Word}
    (h : s.memWrite a n v = .ok s') : HoldsCommand s s' := by
  obtain rfl | ⟨-, -, rfl⟩ | ⟨-, -, rfl⟩ | ⟨-, hidle, -⟩ := State.memWrite_eq_ok s s' a n v h
  · exact HoldsCommand.refl hb
  · exact HoldsCommand.refl hb
  · exact State.writeControl_holdsCommand hb _ _
  · rw [hb] at hidle
    cases hidle

/-- No access of the host changes what a busy engine works on; a release of RST is no edge where RST is not asserted. -/
theorem State.perform_holdsCommand (hr : s.rst = false) {t : State} {op : HostOp} {rest : List HostOp}
    (h : s.perform op rest = .ok t) : HoldsCommand s t := by
  obtain ⟨a, n, v, r, -, hm, rfl⟩ | ⟨a, n, v, r, -, hm, rfl⟩ | ⟨v, r, -, hm, rfl⟩ | ⟨-, rfl⟩ | ⟨-, rfl⟩ |
    ⟨-, rfl⟩ | ⟨-, rfl⟩ := State.perform_eq_ok s t op rest h
  · exact (State.memRead_holdsCommand hb hm :)
  · exact (State.memWrite_holdsCommand hb hm :)
  · exact (State.memRead_holdsCommand hb hm :)
  · exact HoldsCommand.refl hb
  · exact HoldsCommand.refl hb
  · exact HoldsCommand.refl hb
  · have hrel : s.releaseRst = s := by simp [State.releaseRst, hr]
    rw [hrel]
    exact HoldsCommand.refl hb

end

/-- Settles O14: a step with latency remaining is the host's turn, and every access of it holds the command. -/
theorem operandsFixedWhileBusy : Obligations.OperandsFixedWhileBusy := by
  intro s t hr hb hrem _ h
  obtain ⟨n, -, htick⟩ := s.tick_eq
  have hd : ¬ Due s := fun ⟨_, _, h0⟩ => hrem h0
  obtain ht | ⟨op, rest, -, hp⟩ := step_of_not_due_eq_next hd h
  · rw [ht, htick]
    exact HoldsCommand.refl hb
  · rw [htick] at hp
    exact (State.perform_holdsCommand (s := { s with remaining := n }) hb hr hp :)

/-! ### Serialisation, and an element through its window (R21, R75, R87) -/

/-- Zero bytes above a string add nothing to its value (R21). -/
theorem fromBytes_append_zeros (bs : List Byte) (k : Nat) : fromBytes (bs ++ List.replicate k 0) = fromBytes bs := by
  induction bs with
  | nil =>
    induction k with
    | zero => rfl
    | succ k ih => simpa [List.replicate_succ, fromBytes] using ih
  | cons b bs ih => rw [List.cons_append, fromBytes, fromBytes, ih]

/-- Two strings side by side are read as one. -/
theorem Memory.readBytes_append {m : Memory} {a n k : Nat} {bs cs : List Byte} (hb : m.readBytes a n = some bs)
    (hc : m.readBytes (a + n) k = some cs) : m.readBytes a (n + k) = some (bs ++ cs) := by
  obtain ⟨rfl, hbs⟩ := (Memory.readBytes_eq_some_iff _ _ _ _).mp hb
  obtain ⟨rfl, hcs⟩ := (Memory.readBytes_eq_some_iff _ _ _ _).mp hc
  refine (Memory.readBytes_eq_some_iff _ _ _ _).mpr ⟨List.length_append, fun j hj => ?_⟩
  by_cases hlow : j < bs.length
  · rw [hbs j hlow, List.getElem?_append_left hlow]
  · rw [List.getElem?_append_right (by omega), ← hcs (j - bs.length) (by omega)]
    congr 1
    omega

/-- Settles O50: the window is written in two parts, the string and the zeros above it, and the value of the whole
is that of the string. -/
theorem serialisationRoundTrip : Obligations.SerialisationRoundTrip := by
  refine ⟨fun f x hx => ?_, fun f b hb => hb ▸ toBytes_fromBytes b, fun f m r x hx => ?_⟩
  · rw [degree_eq_eight_bytes] at hx
    exact fromBytes_toBytes_of_lt _ _ hx
  rw [degree_eq_eight_bytes] at hx
  have hle := bytes_le f
  have hlow : ((m.write (elemBase r.toNat) (toBytes f.bytes x)).write (elemBase r.toNat + f.bytes)
      (List.replicate (32 - f.bytes) 0)).readBytes (elemBase r.toNat) f.bytes = some (toBytes f.bytes x) := by
    rw [Memory.readBytes_write_outside _ _ _ _ _ (.inl le_rfl), Memory.readBytes_write_toBytes]
  have hhigh := Memory.readBytes_write_same (m.write (elemBase r.toNat) (toBytes f.bytes x))
    (elemBase r.toNat + f.bytes) (List.replicate (32 - f.bytes) 0)
  rw [List.length_replicate] at hhigh
  have hall := Memory.readBytes_append hlow hhigh
  rw [Nat.add_sub_cancel' hle] at hall
  exact ⟨hlow, by rw [Memory.elem, hall, Option.map_some, fromBytes_append_zeros, fromBytes_toBytes_of_lt _ _ hx]⟩

end Sys2Proof.Machine
end

section
/-! The fields of a word (R100, R101), and which words the decoder takes (R105 to R109). -/

namespace Sys2Proof.Machine

open Sys2Proof Sys2Proof.Laws

/-- The eight fields are all of a word: no bit stands outside them (R100). -/
theorem word_eq_iff (w w' : Word) : w = w' ↔ fieldOp w = fieldOp w' ∧ fieldRd w = fieldRd w' ∧
    fieldRs1 w = fieldRs1 w' ∧ fieldRs2 w = fieldRs2 w' ∧ fieldMd w = fieldMd w' ∧ fieldMs1 w = fieldMs1 w' ∧
    fieldMs2 w = fieldMs2 w' ∧ fieldImm8 w = fieldImm8 w' := by
  refine ⟨by rintro rfl; simp, ?_⟩
  simp only [fieldOp, fieldRd, fieldRs1, fieldRs2, fieldMd, fieldMs1, fieldMs2, fieldImm8, BitVec.toNat_eq,
    BitVec.extractLsb'_toNat, Nat.shiftRight_eq_div_pow]
  omega

/-- Each field is read back from the place it was put in (R100, R101). -/
@[simp] theorem fields_packFields (imm8 : BitVec 8) (ms2 ms1 md : MatIx) (rs2 rs1 rd : ElemIx) (op : BitVec 6) :
    fieldOp (packFields imm8 ms2 ms1 md rs2 rs1 rd op) = op ∧
    fieldRd (packFields imm8 ms2 ms1 md rs2 rs1 rd op) = rd ∧
    fieldRs1 (packFields imm8 ms2 ms1 md rs2 rs1 rd op) = rs1 ∧
    fieldRs2 (packFields imm8 ms2 ms1 md rs2 rs1 rd op) = rs2 ∧
    fieldMd (packFields imm8 ms2 ms1 md rs2 rs1 rd op) = md ∧
    fieldMs1 (packFields imm8 ms2 ms1 md rs2 rs1 rd op) = ms1 ∧
    fieldMs2 (packFields imm8 ms2 ms1 md rs2 rs1 rd op) = ms2 ∧
    fieldImm8 (packFields imm8 ms2 ms1 md rs2 rs1 rd op) = imm8 := by
  refine ⟨fieldOp_packFields .., ?_⟩
  refine ⟨?_, ?_, ?_, ?_, ?_, ?_, ?_⟩ <;>
  · apply BitVec.eq_of_getLsbD_eq
    intro i hi
    simp only [fieldRd, fieldRs1, fieldRs2, fieldMd, fieldMs1, fieldMs2, fieldImm8, packFields,
      BitVec.getLsbD_extractLsb', BitVec.getLsbD_or, BitVec.getLsbD_shiftLeft, BitVec.getLsbD_setWidth]
    interval_cases i <;> simp

@[simp] theorem fields_and (w w' : Word) : fieldOp (w &&& w') = fieldOp w &&& fieldOp w' ∧
    fieldRd (w &&& w') = fieldRd w &&& fieldRd w' ∧ fieldRs1 (w &&& w') = fieldRs1 w &&& fieldRs1 w' ∧
    fieldRs2 (w &&& w') = fieldRs2 w &&& fieldRs2 w' ∧ fieldMd (w &&& w') = fieldMd w &&& fieldMd w' ∧
    fieldMs1 (w &&& w') = fieldMs1 w &&& fieldMs1 w' ∧ fieldMs2 (w &&& w') = fieldMs2 w &&& fieldMs2 w' ∧
    fieldImm8 (w &&& w') = fieldImm8 w &&& fieldImm8 w' := by
  simp [fieldOp, fieldRd, fieldRs1, fieldRs2, fieldMd, fieldMs1, fieldMs2, fieldImm8, BitVec.extractLsb'_and]

theorem and_all_ones : (∀ x : BitVec 2, x &&& 3#2 = x) ∧ (∀ x : BitVec 4, x &&& 15#4 = x) ∧
    ∀ x : BitVec 8, x &&& 255#8 = x :=
  ⟨fun _ => BitVec.and_allOnes, fun _ => BitVec.and_allOnes, fun _ => BitVec.and_allOnes⟩

/-- The mask of a row of the opcode map is ones in the fields that R105 says the row does not use (R106). -/
theorem matchesRow_iff {w : Word} (h : (fieldOp w).toNat < 10) :
    matchesRow (fieldOp w).toNat w = true ↔ ¬ unusedFieldNonzero w := by
  unfold unusedFieldNonzero
  have hop : fieldOp w = BitVec.ofNat 6 (fieldOp w).toNat := by simp
  generalize (fieldOp w).toNat = n at h hop
  interval_cases n
  all_goals
    simp only [matchesRow, opcodeMap, List.getElem?_cons_succ, List.getElem?_cons_zero, beq_iff_eq, word_eq_iff,
      fields_and, hop]
    simp [fieldOp, fieldRd, fieldRs1, fieldRs2, fieldMd, fieldMs1, fieldMs2, fieldImm8, and_all_ones]

theorem decode_of_reserved {w : Word} (h : 10 ≤ (fieldOp w).toNat) :
    decode w = .error (.reservedOpcode (fieldOp w)) := by
  rw [decode, if_pos h]

theorem decode_of_unusedField {w : Word} (h : unusedFieldNonzero w) : ∃ e, decode w = .error e := by
  by_cases hop : 10 ≤ (fieldOp w).toNat
  · exact ⟨_, decode_of_reserved hop⟩
  · have hrow : ¬ matchesRow (fieldOp w).toNat w = true := fun hm => (matchesRow_iff (by omega)).mp hm h
    exact ⟨_, by rw [decode, if_neg hop, if_neg hrow]⟩

theorem decode_of_matchesRow {w : Word} (hop : (fieldOp w).toNat < 10)
    (hrow : matchesRow (fieldOp w).toNat w = true) : decode w = commandOf w := by
  rw [decode, if_neg (by omega), if_pos hrow]

theorem decode_eq_ok {w : Word} {i : Instr} (h : decode w = .ok i) :
    ¬ unusedFieldNonzero w ∧ commandOf w = .ok i := by
  have hu : ¬ unusedFieldNonzero w := fun hu => by
    obtain ⟨e, he⟩ := decode_of_unusedField hu
    cases he.symm.trans h
  have hop : (fieldOp w).toNat < 10 := by
    by_contra hop
    cases (decode_of_reserved (not_lt.mp hop)).symm.trans h
  exact ⟨hu, (decode_of_matchesRow hop ((matchesRow_iff hop).mpr hu)).symm.trans h⟩

theorem matchesItsRow (i : Instr) : MatchesItsRow.Statement i := by
  cases i with
  | nop => exact MatchesItsRow.nop
  | fadd rd rs1 rs2 => exact MatchesItsRow.fadd rd rs1 rs2
  | fmul rd rs1 rs2 => exact MatchesItsRow.fmul rd rs1 rs2
  | fexp rd rs1 rs2 => exact MatchesItsRow.fexp rd rs1 rs2
  | fexpm rd rs1 imm8 => exact MatchesItsRow.fexpm rd rs1 imm8
  | finv rd rs1 => exact MatchesItsRow.finv rd rs1
  | vecmat rd rs1 ms1 => exact MatchesItsRow.vecmat rd rs1 ms1
  | matmat md ms1 ms2 => exact MatchesItsRow.matmat md ms1 ms2
  | genlayer rd imm8 => exact MatchesItsRow.genlayer rd imm8
  | eval => exact MatchesItsRow.eval

/-- A packed word gets past both checks of the decoder: its opcode is in the map and its unused fields are zero. -/
theorem decode_encode_eq_commandOf (i : Instr) : decode (encode i) = commandOf (encode i) := by
  obtain ⟨hop, hrow⟩ := matchesItsRow i
  have hlt : opcodeOf i < 10 := by cases i <;> simp [opcodeOf]
  exact decode_of_matchesRow (by omega) (by rwa [hop])

theorem commandOf_encode {i : Instr} (h : i.wellFormed = true) : commandOf (encode i) = .ok i := by
  cases i with
  | genlayer rd imm8 =>
    have hs : layerCountOk imm8 = true := h
    simp [commandOf, encode, hs]
  | nop | fadd | fmul | fexp | fexpm | finv | vecmat | matmat | eval => simp [commandOf, encode]

/-- Settles O1: the word passes the decoder's two checks, and its fields are read back where they were put. -/
theorem encodeThenDecode : Obligations.EncodeThenDecode := fun i h =>
  (decode_encode_eq_commandOf i).trans (commandOf_encode h)

/-- The encoder puts the used fields back, and the unused ones were zero (R105, R106). -/
theorem encode_of_commandOf {w : Word} {i : Instr} (hu : ¬ unusedFieldNonzero w) (h : commandOf w = .ok i) :
    encode i = w := by
  have hop : fieldOp w = BitVec.ofNat 6 (fieldOp w).toNat := by simp
  unfold unusedFieldNonzero at hu
  unfold commandOf at h
  generalize (fieldOp w).toNat = n at hu h hop
  split at h
  case h_9 =>
    split at h <;> cases h
    simp only [ne_eq, not_or, not_not] at hu
    simp [word_eq_iff, encode, hop, hu]
  case h_11 => cases h
  all_goals
    cases h
    simp only [ne_eq, not_or, not_not] at hu
    simp [word_eq_iff, encode, hop, hu]

/-- Settles O2: a word is its eight fields; the command holds those its opcode uses, and the decoder has found the
others zero. -/
theorem decodeThenEncode : Obligations.DecodeThenEncode := by
  intro w i h
  obtain ⟨hu, hc⟩ := decode_eq_ok h
  exact ⟨wellFormed_of_decode h, encode_of_commandOf hu hc⟩

/-- A due word that is no command completes with IllegalCommand (R106 to R109, R254). -/
theorem step_of_illegal {s : State} {e : DecodeError} (hd : Due s) (h : decode s.cmd = .error e) :
    ∃ t, step s = .next t ∧ FailedWith 3 s t := by
  refine ⟨s.complete .illegalCommand, ?_, failedWith_complete s (by decide)⟩
  rw [step_of_due s ((State.completionDue_iff s).mpr hd), State.completion_of_illegal s e h]

/-- Settles O3: the decoder refuses a reserved opcode before it looks at any other field. -/
theorem reservedOpcodeIsIllegal : Obligations.ReservedOpcodeIsIllegal := fun _ hd h =>
  step_of_illegal hd (decode_of_reserved h)

/-- Settles O4: such a word is not its row of the opcode map. -/
theorem unusedFieldIsIllegal : Obligations.UnusedFieldIsIllegal := by
  intro s hd h
  obtain ⟨e, he⟩ := decode_of_unusedField h
  exact step_of_illegal hd he

theorem decode_genlayer_of_layerCount (rd : ElemIx) {imm8 : BitVec 8} (h : layerCountOk imm8 = false) :
    decode (encode (.genlayer rd imm8)) = .error (.layerCount imm8) := by
  rw [decode_encode_eq_commandOf]
  simp [commandOf, encode, h]

/-- Settles O5: the word is its row of the opcode map, and the decoder then checks the count. -/
theorem layerCountIsIllegal : Obligations.LayerCountIsIllegal := by
  intro s rd imm8 hd hw hs
  have hcmd : s.cmd = encode (.genlayer rd imm8) := by
    rw [hw]
    simp [encode, packFields]
  have hcount : layerCountOk imm8 = false := by
    rw [layerCountOk, Bool.and_eq_false_iff, decide_eq_false_iff_not, decide_eq_false_iff_not]
    omega
  exact step_of_illegal hd (hcmd ▸ decode_genlayer_of_layerCount rd hcount)

/-- Settles O6: the decoder is run on the ten words. -/
theorem specWordsDecode : Obligations.SpecWordsDecode := by
  unfold Obligations.SpecWordsDecode
  decide

end Sys2Proof.Machine
end

section
/-! What the assembler's pseudo-instructions compute (R112): the square, the copy x^1, and x + x. -/

namespace Sys2Proof.Machine

open Sys2Proof

/-- A body that stores a field element in E[r] completes with it there (R34, R254). -/
theorem exec_of_setElem {i : Instr} {s : State} {r : ElemIx} {y : Nat} (hy : y < 2 ^ s.fsel.degree)
    (h : bodyOf i s = .ok (s.mem.setElem r y)) :
    ∃ t, exec i s = .next t ∧ Succeeded s t ∧ t.mem.elem r = some y ∧
      KeptOutside s.mem t.mem (elemBase r.toNat) 32 := by
  refine ⟨State.complete { s with mem := s.mem.setElem r y } .ok, by rw [exec_eq_finish, h, State.finish_ok],
    ⟨?_, rfl, rfl, sameControls_complete s _ .ok⟩, ?_, Memory.setElem_keptOutside _ _ _⟩
  · simp [Status.afterCompletion, ErrorCode.bits]
  · have hlt : y < 2 ^ 256 := hy.trans_le (Nat.pow_le_pow_right (by omega) (degree_le s.fsel))
    rw [State.complete_mem, Memory.elem_setElem_same, Nat.mod_eq_of_lt hlt]

/-- The turn of R142 that uses up the lowest bit of b. -/
theorem shiftLeft_eq_bit_xor (b i : Nat) :
    b <<< i = (if b.testBit 0 then 2 ^ i else 0) ^^^ (b >>> 1) <<< (i + 1) := by
  have hb : b = (if b.testBit 0 then 1 else 0) ^^^ (b >>> 1) <<< 1 := by
    conv_lhs => rw [← Nat.bit_testBit_zero_shiftRight_one b, Nat.bit_val]
    rw [Nat.xor_comm, Nat.shiftLeft_eq, pow_one, mul_comm (b >>> 1)]
    cases b.testBit 0
    · simp
    · simp [Nat.xor_one_of_even]
  conv_lhs => rw [hb, Nat.shiftLeft_xor_distrib, ← Nat.shiftLeft_add, Nat.add_comm 1 i]
  split_ifs <;> simp [Nat.shiftLeft_eq]

/-- As long as no shift reaches bit d, the loop of R142 adds up the shifted summands unreduced. -/
theorem gfMulLoop_two_pow (f : FieldSel) (n : Nat) : ∀ (r : Nat) {i b : Nat}, n + i ≤ f.degree → b < 2 ^ n →
    gfMulLoop f n r (2 ^ i) b = r ^^^ b <<< i := by
  induction n with
  | zero =>
    intro r i b _ hb
    obtain rfl : b = 0 := by simpa using hb
    simp [gfMulLoop]
  | succ n ih =>
    intro r i b hn hb
    have hhalf : b >>> 1 < 2 ^ n := by rw [Nat.shiftRight_eq_div_pow]; omega
    have hsum : (if b.testBit 0 then r ^^^ 2 ^ i else r) = r ^^^ (if b.testBit 0 then 2 ^ i else 0) := by
      split_ifs <;> simp
    have hshift : 2 ^ i <<< 1 = 2 ^ (i + 1) := by rw [Nat.shiftLeft_eq, pow_one, pow_succ]
    rw [gfMulLoop, hsum, hshift, shiftLeft_eq_bit_xor b i, ← Nat.xor_assoc]
    obtain rfl | h0 := eq_or_ne b 0
    · simp
    obtain rfl | hpos := Nat.eq_zero_or_pos n
    · have h : b >>> 1 = 0 := by simpa using hhalf
      simp [gfMulLoop, h, h0]
    · have hbit : (2 ^ (i + 1)).testBit f.degree = false := Nat.testBit_two_pow_of_ne (by omega)
      simpa [h0, hbit] using ih _ (by omega) hhalf

theorem gfMul_one_left {f : FieldSel} {x : Nat} (h : x < 2 ^ f.degree) : gfMul f 1 x = x := by
  simpa [gfMul] using gfMulLoop_two_pow f f.degree 0 (i := 0) le_rfl h

/-- The power x^(2^1 - 1) of `fmov` is x: one turn of R144, which squares 1 and multiplies it by x. -/
theorem gfExp_one {f : FieldSel} {x : Nat} (h : x < 2 ^ f.degree) : gfExp f x 1 = x := by
  have hone : 1 < 2 ^ f.degree := Nat.one_lt_two_pow (by have := degree_pos f; omega)
  have hloop : gfExp f x 1 = gfMul f (gfMul f 1 1) x := rfl
  rw [hloop, gfMul_one_left hone, gfMul_one_left h]

@[simp] theorem elemNumber_toNat (r : ElemIx) : elemNumber r.toNat = some r := by
  rw [elemNumber, if_pos r.isLt, BitVec.ofNat_toNat, BitVec.setWidth_eq]

/-- Settles O60: `fsqr` is FMUL of x with itself, `fmov` FEXPM with k = 1, `fclr` FADD of x with itself. -/
theorem pseudoInstructionResults : Obligations.PseudoInstructionResults := by
  intro s d a x ha hx
  have hv : validOperand s.fsel x = true := (validOperand_iff _ _).mpr hx
  refine ⟨⟨.fmul d a a, ?_⟩, ⟨.fexpm d a 0, ?_⟩, ⟨.fadd d a a, ?_⟩⟩
  · have hb : bodyOf (.fmul d a a) s = .ok (s.mem.setElem d (gfMul s.fsel x x)) := by
      simp [bodyOf, fmulBody, State.fetchElem, ha, hv]
    obtain ⟨t, ht, hok, hd, -⟩ := exec_of_setElem (gfMulLoop_lt _ _ _ (Nat.two_pow_pos _) hx) hb
    exact ⟨t, by simp [assemble], ht, hok, hd⟩
  · have hb : bodyOf (.fexpm d a 0) s = .ok (s.mem.setElem d x) := by
      simp [bodyOf, fexpmBody, State.fetchElem, ha, hv, powerMapExponent, gfExp_one hx]
    obtain ⟨t, ht, hok, hd, -⟩ := exec_of_setElem hx hb
    exact ⟨t, by simp [assemble, powerImm], ht, hok, hd⟩
  · have hb : bodyOf (.fadd d a a) s = .ok (s.mem.setElem d 0) := by
      simp [bodyOf, faddBody, State.fetchElem, ha, hv, gfAdd]
    obtain ⟨t, ht, hok, hd, -⟩ := exec_of_setElem (Nat.two_pow_pos _) hb
    exact ⟨t, by simp [assemble], ht, hok, hd⟩

end Sys2Proof.Machine
end

section
/-! The field commands (R140 to R149): what each writes where its operands are good, and the operands FEXP and FINV
refuse. -/

namespace Sys2Proof.Machine

open Sys2Proof

/-- A body that runs to its end completes with code OK over the storage it leaves (R254). -/
theorem exec_of_ok {i : Instr} {s : State} {m : Memory} (h : bodyOf i s = .ok m) :
    ∃ t, exec i s = .next t ∧ Succeeded s t ∧ t.mem = m := by
  refine ⟨State.complete { s with mem := m } .ok, by rw [exec_eq_finish, h, State.finish_ok],
    ⟨?_, rfl, rfl, sameControls_complete s m .ok⟩, rfl⟩
  simp [Status.afterCompletion, ErrorCode.bits]

/-- Settles O20: the body of NOP ends with the storage as it is. -/
theorem nopCompletes : Obligations.NopCompletes := fun _ => exec_of_ok rfl

/-- Settles O21: both operands pass the range check, and their sum is in the field. -/
theorem faddCompletes : Obligations.FaddCompletes := by
  intro s rd rs1 rs2 a b ha hb hlta hltb
  have hva := (validOperand_iff s.fsel a).mpr hlta
  have hvb := (validOperand_iff s.fsel b).mpr hltb
  exact exec_of_setElem (Nat.xor_lt_two_pow hlta hltb)
    (by simp [bodyOf, faddBody, State.fetchElem, ha, hb, hva, hvb, gfAdd])

/-- Settles O22: both operands pass the range check, and the loop of R142 stays in the field. -/
theorem fmulCompletes : Obligations.FmulCompletes := by
  intro s rd rs1 rs2 a b ha hb hlta hltb
  have hva := (validOperand_iff s.fsel a).mpr hlta
  have hvb := (validOperand_iff s.fsel b).mpr hltb
  exact exec_of_setElem (gfMulLoop_lt _ _ _ (Nat.two_pow_pos _) hlta)
    (by simp [bodyOf, fmulBody, State.fetchElem, ha, hb, hva, hvb])

/-- Settles O23: the base passes the range check and the exponent the check for 0. -/
theorem fexpCompletes : Obligations.FexpCompletes := by
  intro s rd rs1 rs2 x e hx he hlt he0
  have hv := (validOperand_iff s.fsel x).mpr hlt
  have hne : (e != 0) = true := bne_iff_ne.mpr he0
  exact exec_of_setElem (gfExp_lt _ _ _) (by simp [bodyOf, fexpBody, State.fetchElem, hx, he, hv, hne])

/-- Settles O24: the operand passes the range check, the only one there is. -/
theorem fexpmCompletes : Obligations.FexpmCompletes := by
  intro s rd rs1 imm8 x hx hlt
  have hv := (validOperand_iff s.fsel x).mpr hlt
  exact exec_of_setElem (gfExp_lt _ _ _)
    (by simp [bodyOf, fexpmBody, State.fetchElem, hx, hv, powerMapExponent])

/-- Settles O25: the operand passes the range check and the check for 0. -/
theorem finvCompletes : Obligations.FinvCompletes := by
  intro s rd rs1 x hx hlt hx0
  have hv := (validOperand_iff s.fsel x).mpr hlt
  have hne : (x != 0) = true := bne_iff_ne.mpr hx0
  exact exec_of_setElem (gfExp_lt _ _ _) (by simp [bodyOf, finvBody, State.fetchElem, hx, hv, hne, gfInv])

/-- Settles O33: EVAL stores CT_BUF whole or nothing, and NOP ends with the storage as it is. -/
theorem evalAndNopFrame : Obligations.EvalAndNopFrame := by
  refine ⟨fun s t h => ?_, fun s t h => ?_⟩
  · obtain ⟨hsame, hhz, hm | hm⟩ := exec_frame h
    · obtain ⟨bs, hl, hmem⟩ := bodyOf_eval hm
      refine ⟨fun x hx => ?_, hsame, hhz⟩
      rw [hmem, Memory.byteAt_write_outside _ _ _ _ (by rwa [hl])]
    · exact ⟨fun x _ => by rw [hm], hsame, hhz⟩
  · obtain ⟨hsame, hhz, hm | hm⟩ := exec_frame h
    · have hmem : s.mem = t.mem := Except.ok.inj hm
      exact ⟨fun x => by rw [hmem], hsame, hhz⟩
    · exact ⟨fun x => by rw [hm], hsame, hhz⟩

/-- Settles O37: 0 is below 2^d, so each body passes its range check and stops at its check for 0. -/
theorem invalidOperandCases : Obligations.InvalidOperandCases := by
  refine ⟨fun s rd rs1 hx => exec_of_raise (c := .invalidOperand) ?_,
    fun s rd rs1 rs2 x hx hlt he => exec_of_raise (c := .invalidOperand) ?_⟩
  · have hv := (validOperand_iff s.fsel 0).mpr (Nat.two_pow_pos _)
    simp [bodyOf, finvBody, State.fetchElem, hx, hv]
  · have hv := (validOperand_iff s.fsel x).mpr hlt
    simp [bodyOf, fexpBody, State.fetchElem, hx, he, hv]

end Sys2Proof.Machine
end

section
/-! Numbers as polynomials over GF(2), bit k the coefficient of X^k (R17): what xor, a shift and the carry-less product
become there. -/

namespace Sys2Proof.Machine

open Sys2Proof Polynomial

/-- The polynomial of the bits of `n` below bit `m`. -/
noncomputable def lowPoly (n m : Nat) : (ZMod 2)[X] :=
  ∑ i ∈ Finset.range m, if n.testBit i then X ^ i else 0

/-- The polynomial whose coefficient of X^k is bit k of `n`; n < 2^n, so no bit is left out (R17). -/
noncomputable def toPoly (n : Nat) : (ZMod 2)[X] := lowPoly n n

theorem lowPoly_succ (n m : Nat) : lowPoly n (m + 1) = lowPoly n m + if n.testBit m then X ^ m else 0 :=
  Finset.sum_range_succ _ _

theorem coeff_lowPoly (n m j : Nat) : (lowPoly n m).coeff j = if j < m ∧ n.testBit j then 1 else 0 := by
  induction m with
  | zero => simp [lowPoly]
  | succ m ih =>
    rw [lowPoly_succ, coeff_add, ih]
    rcases Nat.lt_trichotomy j m with h | rfl | h
    · simp [h, h.trans (Nat.lt_succ_self m), apply_ite (coeff · j), coeff_X_pow, h.ne]
    · cases h : n.testBit j <;> simp
    · simp [show ¬ j < m by omega, show ¬ j < m + 1 by omega, apply_ite (coeff · j), coeff_X_pow, h.ne']

@[simp] theorem coeff_toPoly (n j : Nat) : (toPoly n).coeff j = if n.testBit j then 1 else 0 := by
  rw [toPoly, coeff_lowPoly]
  by_cases h : j < n
  · simp [h]
  · simp [h, Nat.testBit_lt_two_pow (Nat.lt_two_pow_self.trans_le (Nat.pow_le_pow_right two_pos (not_lt.mp h)))]

theorem lowPoly_eq_toPoly {n m : Nat} (h : n < 2 ^ m) : lowPoly n m = toPoly n := by
  ext j
  rw [coeff_lowPoly, coeff_toPoly]
  by_cases hj : j < m
  · simp [hj]
  · simp [hj, Nat.testBit_lt_two_pow (h.trans_le (Nat.pow_le_pow_right two_pos (not_lt.mp hj)))]

/-- Addition in R139 is the sum of polynomials. -/
theorem toPoly_xor (m n : Nat) : toPoly (m ^^^ n) = toPoly m + toPoly n := by
  ext j
  rw [coeff_add, coeff_toPoly, coeff_toPoly, coeff_toPoly, Nat.testBit_xor]
  cases m.testBit j <;> cases n.testBit j <;> decide

theorem toPoly_shiftLeft (n k : Nat) : toPoly (n <<< k) = X ^ k * toPoly n := by
  ext j
  rw [coeff_X_pow_mul', coeff_toPoly, Nat.testBit_shiftLeft]
  by_cases h : k ≤ j <;> simp [h]

@[simp] theorem toPoly_zero : toPoly 0 = 0 := rfl

theorem toPoly_two_pow (k : Nat) : toPoly (2 ^ k) = X ^ k := by
  ext j
  simp [coeff_X_pow, Nat.testBit_two_pow, eq_comm]

@[simp] theorem toPoly_one : toPoly 1 = 1 := by simpa using toPoly_two_pow 0

theorem toPoly_two : toPoly 2 = X := by simpa using toPoly_two_pow 1

theorem toPoly_eq_zero {n : Nat} (h : toPoly n = 0) : n = 0 := by
  refine Nat.eq_of_testBit_eq fun j => ?_
  have hj := congrArg (coeff · j) h
  cases hb : n.testBit j
  · simp
  · simp [hb] at hj

theorem degree_toPoly_lt {n d : Nat} (h : n < 2 ^ d) : (toPoly n).degree < d := by
  rw [degree_lt_iff_coeff_zero]
  intro j hj
  simp [Nat.testBit_lt_two_pow (h.trans_le (Nat.pow_le_pow_right two_pos hj))]

/-- Every polynomial is that of a number: a sum of powers of X. -/
theorem exists_toPoly (p : (ZMod 2)[X]) : ∃ n, toPoly n = p := by
  induction p using Polynomial.induction_on' with
  | add p q hp hq =>
    obtain ⟨m, rfl⟩ := hp
    obtain ⟨n, rfl⟩ := hq
    exact ⟨m ^^^ n, toPoly_xor m n⟩
  | monomial k a =>
    obtain rfl | rfl : a = 0 ∨ a = 1 := by revert a; decide
    · exact ⟨0, by simp⟩
    · exact ⟨2 ^ k, by rw [toPoly_two_pow, monomial_one_right_eq_X_pow]⟩

theorem lt_two_pow_bitLen (e : Nat) : e < 2 ^ bitLen e := by
  unfold bitLen
  split_ifs with h
  · simp [h]
  · exact Nat.lt_log2_self

theorem toPoly_carrylessUpTo (x y n : Nat) : toPoly (carrylessUpTo x y n) = toPoly x * lowPoly y n := by
  induction n with
  | zero => simp [carrylessUpTo, lowPoly]
  | succ n ih =>
    rw [carrylessUpTo, toPoly_xor, ih, lowPoly_succ, mul_add]
    split_ifs <;> simp [toPoly_shiftLeft, mul_comm]

/-- The carry-less product is the product of polynomials (R17). -/
theorem toPoly_carryless (x y : Nat) : toPoly (carryless x y) = toPoly x * toPoly y := by
  rw [carryless, toPoly_carrylessUpTo, lowPoly_eq_toPoly (lt_two_pow_bitLen y)]

end Sys2Proof.Machine
end

section
/-! The field functions modulo f_d (R142, R144, R150): a field element stands for one residue class of polynomials, and
there gf_mul_d is the product and gf_exp_d the power. -/

namespace Sys2Proof.Machine

open Sys2Proof Polynomial

/-- The residue class of the polynomial of `n` modulo f_d (R9 to R11, R142). -/
noncomputable def residue (f : FieldSel) (n : Nat) : AdjoinRoot (toPoly f.poly) :=
  AdjoinRoot.mk (toPoly f.poly) (toPoly n)

theorem residue_eq_iff {f : FieldSel} {m n : Nat} :
    residue f m = residue f n ↔ toPoly f.poly ∣ toPoly (m ^^^ n) := by
  rw [residue, residue, AdjoinRoot.mk_eq_mk, toPoly_xor, CharTwo.sub_eq_add]

@[simp] theorem residue_zero (f : FieldSel) : residue f 0 = 0 := by simp [residue]

@[simp] theorem residue_one (f : FieldSel) : residue f 1 = 1 := by simp [residue]

theorem residue_two (f : FieldSel) : residue f 2 = AdjoinRoot.root (toPoly f.poly) := by
  rw [residue, toPoly_two, AdjoinRoot.mk_X]

@[simp] theorem residue_xor (f : FieldSel) (m n : Nat) : residue f (m ^^^ n) = residue f m + residue f n := by
  rw [residue, toPoly_xor, map_add, residue, residue]

theorem residue_shiftLeft_one (f : FieldSel) (n : Nat) : residue f (n <<< 1) = residue f 2 * residue f n := by
  rw [residue_two, residue, toPoly_shiftLeft, pow_one, map_mul, AdjoinRoot.mk_X, residue]

@[simp] theorem residue_poly (f : FieldSel) : residue f f.poly = 0 := AdjoinRoot.mk_self

theorem natDegree_toPoly_poly (f : FieldSel) : (toPoly f.poly).natDegree = f.degree := by
  refine natDegree_eq_of_le_of_coeff_ne_zero (natDegree_le_iff_coeff_eq_zero.mpr fun j hj => ?_)
    (by simp [poly_testBit_degree])
  exact coeff_eq_zero_of_degree_lt ((degree_toPoly_lt (poly_lt f)).trans_le (Nat.cast_le.mpr hj))

theorem toPoly_poly_ne_zero (f : FieldSel) : toPoly f.poly ≠ 0 := fun h => by
  have := natDegree_toPoly_poly f
  rw [h, natDegree_zero] at this
  exact absurd (degree_pos f) (by omega)

theorem two_lt_two_pow_degree (f : FieldSel) : 2 < 2 ^ f.degree :=
  lt_of_lt_of_le (by decide) (Nat.pow_le_pow_right two_pos (degree_pos f))

/-- Different field elements are in different classes: their sum has a degree below d. -/
theorem eq_of_residue_eq {f : FieldSel} {x y : Nat} (hx : x < 2 ^ f.degree) (hy : y < 2 ^ f.degree)
    (h : residue f x = residue f y) : x = y := by
  have hdeg : (toPoly (x ^^^ y)).degree < (toPoly f.poly).degree := by
    rw [degree_eq_natDegree (toPoly_poly_ne_zero f), natDegree_toPoly_poly]
    exact degree_toPoly_lt (Nat.xor_lt_two_pow hx hy)
  exact Nat.xor_eq_zero_iff.mp (toPoly_eq_zero (eq_zero_of_dvd_of_degree_lt (residue_eq_iff.mp h) hdeg))

/-- One turn of R142 takes the lowest bit of b from its class. -/
theorem residue_eq_bit_add (f : FieldSel) (b : Nat) :
    residue f b = residue f (b.testBit 0).toNat + residue f 2 * residue f (b >>> 1) := by
  conv_lhs => rw [← Nat.shiftLeft_zero (n := b), shiftLeft_eq_bit_xor b 0, residue_xor, Nat.zero_add,
    residue_shiftLeft_one]
  cases b.testBit 0 <;> simp

/-- What the loop of R142 keeps: the sum so far and the product still to come. -/
theorem residue_gfMulLoop (f : FieldSel) (n : Nat) : ∀ (r a : Nat) {b : Nat}, b < 2 ^ n →
    residue f (gfMulLoop f n r a b) = residue f r + residue f a * residue f b := by
  induction n with
  | zero =>
    intro r a b hb
    obtain rfl : b = 0 := by simpa using hb
    simp [gfMulLoop]
  | succ n ih =>
    intro r a b hb
    have hhalf : b >>> 1 < 2 ^ n := by rw [Nat.shiftRight_eq_div_pow]; omega
    have hshift : residue f (if (a <<< 1).testBit f.degree then a <<< 1 ^^^ f.poly else a <<< 1) =
        residue f 2 * residue f a := by
      split_ifs <;> simp [residue_shiftLeft_one]
    have hsum : residue f (if b.testBit 0 then r ^^^ a else r) =
        residue f r + residue f a * residue f (b.testBit 0).toNat := by
      cases b.testBit 0 <;> simp
    rw [gfMulLoop]
    obtain rfl | h0 := eq_or_ne b 0
    · simp
    · rw [if_neg h0, ih _ _ hhalf, hshift, hsum, residue_eq_bit_add f b]
      ring

/-- gf_mul_d is the product of the classes (R142). -/
theorem residue_gfMul {f : FieldSel} (x : Nat) {y : Nat} (hy : y < 2 ^ f.degree) :
    residue f (gfMul f x y) = residue f x * residue f y := by
  rw [gfMul, residue_gfMulLoop f _ _ _ hy, residue_zero, zero_add]

theorem gfMul_lt {f : FieldSel} {x : Nat} (hx : x < 2 ^ f.degree) (y : Nat) : gfMul f x y < 2 ^ f.degree :=
  gfMulLoop_lt f _ _ (Nat.two_pow_pos _) hx

/-- Settles O51: product and result are in one class, so that they differ by a multiple of f_d. -/
theorem gfMulIsTheReducedProduct : Obligations.GfMulIsTheReducedProduct := by
  intro f x y hx hy
  refine ⟨gfMul_lt hx y, ?_⟩
  have hclass : residue f (carryless x y) = residue f (gfMul f x y) := by
    rw [residue_gfMul x hy, residue, toPoly_carryless, map_mul, residue, residue]
  obtain ⟨p, hp⟩ := residue_eq_iff.mp hclass
  obtain ⟨q, rfl⟩ := exists_toPoly p
  refine ⟨q, Nat.xor_eq_zero_iff.mp (toPoly_eq_zero ?_)⟩
  rw [← Nat.xor_assoc, Nat.xor_right_comm, toPoly_xor, hp, toPoly_carryless, mul_comm, CharTwo.add_self_eq_zero]

/-- Settles O52: the laws are those of the ring of residue classes. -/
theorem gfMulLaws : Obligations.GfMulLaws := by
  intro f x y z hx hy hz
  have h0 : 0 < 2 ^ f.degree := Nat.two_pow_pos _
  have h1 : 1 < 2 ^ f.degree := one_lt_two.trans (two_lt_two_pow_degree f)
  have hyz := Nat.xor_lt_two_pow hy hz
  refine ⟨eq_of_residue_eq (gfMul_lt hx y) (gfMul_lt hy x) ?_,
    eq_of_residue_eq (gfMul_lt hx _) (gfMul_lt (gfMul_lt hx y) z) ?_,
    eq_of_residue_eq (gfMul_lt hx _) (Nat.xor_lt_two_pow (gfMul_lt hx y) (gfMul_lt hx z)) ?_,
    eq_of_residue_eq (gfMul_lt hx 0) h0 ?_, eq_of_residue_eq (gfMul_lt hx 1) hx ?_⟩
  · rw [residue_gfMul _ hy, residue_gfMul _ hx, mul_comm]
  · rw [residue_gfMul _ (gfMul_lt hy z), residue_gfMul _ hz, residue_gfMul _ hz, residue_gfMul _ hy, mul_assoc]
  · rw [residue_gfMul _ hyz, residue_xor, residue_xor, residue_gfMul _ hy, residue_gfMul _ hz, mul_add]
  · rw [residue_gfMul _ h0, residue_zero, mul_zero]
  · rw [residue_gfMul _ h1, residue_one, mul_one]

/-- What the loop of R144 keeps: the power so far, squared once for each bit to come, and the power of those bits. -/
theorem residue_gfExpLoop {f : FieldSel} {x : Nat} (hx : x < 2 ^ f.degree) (e i : Nat) : ∀ {r : Nat},
    r < 2 ^ f.degree →
    residue f (gfExpLoop f x e i r) = residue f r ^ 2 ^ i * residue f x ^ (e % 2 ^ i) := by
  induction i with
  | zero => intro r _; simp [gfExpLoop, Nat.mod_one]
  | succ i ih =>
    intro r hr
    have hstep : residue f (if e.testBit i then gfMul f (gfMul f r r) x else gfMul f r r) =
        residue f r ^ 2 * residue f x ^ (e.testBit i).toNat := by
      cases e.testBit i <;> simp [residue_gfMul _ hx, residue_gfMul _ hr, sq]
    have hlt : (if e.testBit i then gfMul f (gfMul f r r) x else gfMul f r r) < 2 ^ f.degree := by
      split_ifs
      · exact gfMul_lt (gfMul_lt hr r) x
      · exact gfMul_lt hr r
    rw [gfExpLoop, ih hlt, hstep, Nat.mod_pow_succ, ← Nat.toNat_testBit, mul_pow, ← pow_mul, ← pow_mul, pow_succ' 2 i,
      pow_add, mul_comm (2 ^ i) (e.testBit i).toNat]
    ring

/-- gf_exp_d is the power of the class (R144). -/
theorem residue_gfExp {f : FieldSel} {x : Nat} (hx : x < 2 ^ f.degree) (e : Nat) :
    residue f (gfExp f x e) = residue f x ^ e := by
  have h1 : 1 < 2 ^ f.degree := one_lt_two.trans (two_lt_two_pow_degree f)
  rw [gfExp, residue_gfExpLoop hx _ _ h1, residue_one, one_pow, one_mul, Nat.mod_eq_of_lt (lt_two_pow_bitLen e)]

theorem repeatedProduct_lt {f : FieldSel} {x : Nat} (hx : x < 2 ^ f.degree) (k : Nat) :
    (fun r => gfMul f r x)^[k] x < 2 ^ f.degree := by
  induction k with
  | zero => exact hx
  | succ k ih =>
    rw [Function.iterate_succ_apply']
    exact gfMul_lt ih x

theorem residue_repeatedProduct {f : FieldSel} {x : Nat} (hx : x < 2 ^ f.degree) (k : Nat) :
    residue f ((fun r => gfMul f r x)^[k] x) = residue f x ^ (k + 1) := by
  induction k with
  | zero => simp
  | succ k ih => rw [Function.iterate_succ_apply', residue_gfMul _ hx, ih, pow_succ _ (k + 1)]

/-- Settles O53: both are the power of one class. -/
theorem gfExpIsTheRepeatedProduct : Obligations.GfExpIsTheRepeatedProduct := by
  intro f x e hx he
  apply eq_of_residue_eq (gfExp_lt f x e) (repeatedProduct_lt hx _)
  rw [residue_gfExp hx, residue_repeatedProduct hx, Nat.sub_add_cancel he]

end Sys2Proof.Machine
end

section
/-! The polynomials f_d are irreducible (R9 to R11), which makes the classes of field elements a field and gf_inv_d the
inverse in it (R148, R150). Rabin's test asks for X^(2^k) modulo f_d for some k up to d: k squarings of X. -/

namespace Sys2Proof.Machine

open Sys2Proof Polynomial

/-- Rabin's test: a polynomial of degree d that divides X^(2^d) - X, and for no prime p | d has a factor in common with
X^(2^(d/p)) - X, is irreducible. -/
theorem irreducible_of_rabin {F : (ZMod 2)[X]} (h0 : F.natDegree ≠ 0) (hpow : F ∣ X ^ 2 ^ F.natDegree - X)
    (hcop : ∀ p, p.Prime → p ∣ F.natDegree → IsCoprime F (X ^ 2 ^ (F.natDegree / p) - X)) : Irreducible F := by
  have hne : F ≠ 0 := ne_zero_of_natDegree_gt (Nat.pos_of_ne_zero h0)
  have hcard : Nat.card (ZMod 2) = 2 := Nat.card_zmod 2
  obtain ⟨g, hg, hgF⟩ := WfDvdMonoid.exists_irreducible_factor (fun hu => h0 (natDegree_eq_zero_of_isUnit hu)) hne
  have hdvd : g.natDegree ∣ F.natDegree :=
    hg.natDegree_dvd_of_dvd_X_pow_card_pow_sub_X (hcard.symm ▸ hgF.trans hpow)
  have hdeg : g.natDegree = F.natDegree := by
    by_contra hlt
    obtain ⟨k, hk⟩ := hdvd
    have hp : k.minFac.Prime := Nat.minFac_prime (by rintro rfl; exact hlt (by omega))
    have hk' : F.natDegree = g.natDegree * (k / k.minFac) * k.minFac := by
      rw [hk, mul_assoc, Nat.div_mul_cancel k.minFac_dvd]
    have hgk : g.natDegree ∣ F.natDegree / k.minFac := by
      rw [hk', Nat.mul_div_cancel _ hp.pos]
      exact dvd_mul_right _ _
    have hgX : g ∣ X ^ 2 ^ (F.natDegree / k.minFac) - X := by
      have := hg.natDegree_dvd_iff_dvd_X_pow_card_pow_sub_X.mp hgk
      rwa [hcard] at this
    exact hg.not_isUnit ((hcop _ hp (hk' ▸ dvd_mul_left _ _)).isUnit_of_dvd' hgF hgX)
  exact (associated_of_dvd_of_natDegree_le hgF hne hdeg.ge).irreducible hg

/-! ### Squarings of X -/

/-- `a` squared k times modulo f_d. -/
def squareTimes (f : FieldSel) (k a : Nat) : Nat := (fun b => gfMul f b b)^[k] a

theorem squareTimes_add (f : FieldSel) (k l a : Nat) :
    squareTimes f (l + k) a = squareTimes f l (squareTimes f k a) := Function.iterate_add_apply _ _ _ _

theorem squareTimes_lt {f : FieldSel} {a : Nat} (ha : a < 2 ^ f.degree) (k : Nat) :
    squareTimes f k a < 2 ^ f.degree := by
  induction k with
  | zero => exact ha
  | succ k ih =>
    rw [squareTimes, Function.iterate_succ_apply', ← squareTimes]
    exact gfMul_lt ih _

theorem residue_squareTimes {f : FieldSel} {a : Nat} (ha : a < 2 ^ f.degree) (k : Nat) :
    residue f (squareTimes f k a) = residue f a ^ 2 ^ k := by
  induction k with
  | zero => simp [squareTimes]
  | succ k ih =>
    rw [squareTimes, Function.iterate_succ_apply', ← squareTimes, residue_gfMul _ (squareTimes_lt ha k), ih,
      ← pow_add, ← mul_two, ← pow_succ]

section
variable {f : FieldSel} {k : Nat}

theorem residue_squareTimes_two : residue f (squareTimes f k 2) = AdjoinRoot.mk (toPoly f.poly) (X ^ 2 ^ k) := by
  have h2 := two_lt_two_pow_degree f
  rw [residue_squareTimes h2, residue_two, map_pow, AdjoinRoot.mk_X]

/-- X comes back after k squarings. -/
theorem poly_dvd_of_squareTimes (h : squareTimes f k 2 = 2) : toPoly f.poly ∣ X ^ 2 ^ k - X := by
  rw [← AdjoinRoot.mk_eq_mk, ← residue_squareTimes_two, h, residue_two, AdjoinRoot.mk_X]

/-- An inverse of X^(2^k) + X modulo f_d shows that they have no factor in common. -/
theorem isCoprime_of_squareTimes {u : Nat} (hu : gfMul f u (squareTimes f k 2 ^^^ 2) = 1) :
    IsCoprime (toPoly f.poly) (X ^ 2 ^ k - X) := by
  have h2 := two_lt_two_pow_degree f
  have hmul : AdjoinRoot.mk (toPoly f.poly) (toPoly u * (X ^ 2 ^ k - X)) = AdjoinRoot.mk (toPoly f.poly) 1 := by
    rw [map_mul, CharTwo.sub_eq_add, map_add, ← residue_squareTimes_two, AdjoinRoot.mk_X, ← residue_two,
      ← residue, ← residue_xor, ← residue_gfMul u (Nat.xor_lt_two_pow (squareTimes_lt h2 k) h2), hu, residue_one, map_one]
  obtain ⟨q, hq⟩ := AdjoinRoot.mk_eq_mk.mp hmul
  exact ⟨-q, toPoly u, by linear_combination hq⟩

end

/-! ### The squarings run -/

/-- The loop of R142 in arithmetic alone, with p for f_d and t for 2^d: the kernel runs it faster. -/
def mulQuick (p t : Nat) : Nat → Nat → Nat → Nat → Nat
  | 0, r, _, _ => r
  | n + 1, r, a, b => mulQuick p t n (r ^^^ a * (b % 2)) (a * 2 ^^^ p * (a * 2 / t % 2)) (b / 2)

theorem mulQuick_zero (p t n : Nat) : ∀ r a : Nat, mulQuick p t n r a 0 = r := by
  induction n with
  | zero => exact fun _ _ => rfl
  | succ n ih => intro r a; simp [mulQuick, ih]

theorem ite_testBit_xor (a b i r : Nat) : (if b.testBit i then r ^^^ a else r) = r ^^^ a * (b / 2 ^ i % 2) := by
  rw [← Nat.toNat_testBit]
  cases b.testBit i <;> simp

theorem gfMulLoop_eq_mulQuick (f : FieldSel) (n : Nat) : ∀ r a b : Nat,
    gfMulLoop f n r a b = mulQuick f.poly (2 ^ f.degree) n r a b := by
  induction n with
  | zero => exact fun _ _ _ => rfl
  | succ n ih =>
    intro r a b
    rw [gfMulLoop]
    obtain rfl | h0 := eq_or_ne b 0
    · rw [if_pos rfl, mulQuick_zero]
    · rw [if_neg h0, ih, ite_testBit_xor, ite_testBit_xor, mulQuick, Nat.shiftLeft_eq, Nat.shiftRight_eq_div_pow,
        pow_one, pow_zero, Nat.div_one]

theorem squareTimes_eq_mulQuick (f : FieldSel) (k a : Nat) :
    squareTimes f k a = (fun b => mulQuick f.poly (2 ^ f.degree) f.degree 0 b b)^[k] a := by
  simp only [squareTimes, gfMul, gfMulLoop_eq_mulQuick]

theorem squares_gf128 : squareTimes .gf128 64 2 = 0x61651fea6b5832b944e598a795a299f6 ∧
    squareTimes .gf128 64 0x61651fea6b5832b944e598a795a299f6 = 2 := by
  simp only [squareTimes_eq_mulQuick]
  decide +kernel

theorem squares_gf192 : squareTimes .gf192 64 2 = 0xb27f993856acd3c1dc2346ad8206c0ee4daafd20681d2 ∧
    squareTimes .gf192 32 0xb27f993856acd3c1dc2346ad8206c0ee4daafd20681d2 =
      0xaefb821ecc4925bc30328b80f85e64c67543279c257a9542 ∧
    squareTimes .gf192 96 0xaefb821ecc4925bc30328b80f85e64c67543279c257a9542 = 2 := by
  simp only [squareTimes_eq_mulQuick]
  decide +kernel

theorem squares_gf256 :
    squareTimes .gf256 128 2 = 0x2220d78c13d87c2ffc1c5bd25e53444bc74da1980d2519c9d41f22f67f2f9863 ∧
    squareTimes .gf256 128 0x2220d78c13d87c2ffc1c5bd25e53444bc74da1980d2519c9d41f22f67f2f9863 = 2 := by
  simp only [squareTimes_eq_mulQuick]
  decide +kernel

/-- X^(2^d) is X modulo f_d. -/
theorem squareTimes_degree (f : FieldSel) : squareTimes f f.degree 2 = 2 := by
  cases f with
  | gf128 =>
    obtain ⟨h64, h128⟩ := squares_gf128
    rw [show FieldSel.degree .gf128 = 64 + 64 from rfl, squareTimes_add, h64, h128]
  | gf192 =>
    obtain ⟨h64, h96, h192⟩ := squares_gf192
    rw [show FieldSel.degree .gf192 = 96 + (32 + 64) from rfl, squareTimes_add, squareTimes_add, h64, h96, h192]
  | gf256 =>
    obtain ⟨h128, h256⟩ := squares_gf256
    rw [show FieldSel.degree .gf256 = 128 + 128 from rfl, squareTimes_add, h128, h256]

/-- d is a power of 2, or 3 times one. -/
theorem prime_dvd_degree {f : FieldSel} {p : Nat} (hp : p.Prime) (h : p ∣ f.degree) :
    p = 2 ∨ f = .gf192 ∧ p = 3 := by
  have htwo : ∀ n, p ∣ 2 ^ n → p = 2 := fun n hn =>
    (Nat.prime_dvd_prime_iff_eq hp Nat.prime_two).mp (hp.dvd_of_dvd_pow hn)
  cases f with
  | gf128 => exact .inl (htwo 7 h)
  | gf192 =>
    obtain h | h := hp.dvd_mul.mp (show p ∣ 2 ^ 6 * 3 from h)
    · exact .inl (htwo 6 h)
    · exact .inr ⟨rfl, (Nat.prime_dvd_prime_iff_eq hp Nat.prime_three).mp h⟩
  | gf256 => exact .inl (htwo 8 h)

/-- For each prime p | d, X^(2^(d/p)) + X has an inverse modulo f_d. -/
theorem exists_inverse_of_prime_dvd {f : FieldSel} {p : Nat} (hp : p.Prime) (h : p ∣ f.degree) :
    ∃ u, gfMul f u (squareTimes f (f.degree / p) 2 ^^^ 2) = 1 := by
  obtain rfl | ⟨rfl, rfl⟩ := prime_dvd_degree hp h
  · cases f with
    | gf128 =>
      obtain ⟨h64, -⟩ := squares_gf128
      refine ⟨0x9e4af928ddbc838a41a8cafd2c95b018, ?_⟩
      rw [show FieldSel.degree .gf128 / 2 = 64 from rfl, h64]
      decide +kernel
    | gf192 =>
      obtain ⟨h64, h96, -⟩ := squares_gf192
      refine ⟨0x4d7b1a4abdd7016c3a22a6f8086819e103fc6cc72d1f1899, ?_⟩
      rw [show FieldSel.degree .gf192 / 2 = 32 + 64 from rfl, squareTimes_add, h64, h96]
      decide +kernel
    | gf256 =>
      obtain ⟨h128, -⟩ := squares_gf256
      refine ⟨0x41d07da235f08b92d026035887191e2fd91148129c622b9bd3caaa61ed5af509, ?_⟩
      rw [show FieldSel.degree .gf256 / 2 = 128 from rfl, h128]
      decide +kernel
  · obtain ⟨h64, -, -⟩ := squares_gf192
    refine ⟨0x5d250df09cbe238d7b77315252dcc7f4b466c3ca9cbd85b7, ?_⟩
    rw [show FieldSel.degree .gf192 / 3 = 64 from rfl, h64]
    decide +kernel

/-- The polynomials of the three fields are irreducible (R9 to R11). -/
theorem irreducible_poly (f : FieldSel) : Irreducible (toPoly f.poly) := by
  have hd := natDegree_toPoly_poly f
  apply irreducible_of_rabin <;> rw [hd]
  · have := degree_pos f
    omega
  · exact poly_dvd_of_squareTimes (squareTimes_degree f)
  · intro p hp h
    obtain ⟨u, hu⟩ := exists_inverse_of_prime_dvd hp h
    exact isCoprime_of_squareTimes hu

/-! ### The inverse -/

/-- x^(2^d - 1) is 1 for x ≠ 0: the nonzero classes are a group of that order (R150). -/
theorem residue_pow_eq_one {f : FieldSel} {x : Nat} (hx : x < 2 ^ f.degree) (h0 : x ≠ 0) :
    residue f x ^ (2 ^ f.degree - 1) = 1 := by
  have : Fact (Irreducible (toPoly f.poly)) := ⟨irreducible_poly f⟩
  have : Module.Finite (ZMod 2) (AdjoinRoot (toPoly f.poly)) :=
    (AdjoinRoot.powerBasis (toPoly_poly_ne_zero f)).finite
  have : Finite (AdjoinRoot (toPoly f.poly)) := Module.finite_of_finite (ZMod 2)
  have := Fintype.ofFinite (AdjoinRoot (toPoly f.poly))
  have hcard : Fintype.card (AdjoinRoot (toPoly f.poly)) = 2 ^ f.degree := by
    rw [← Nat.card_eq_fintype_card, Module.natCard_eq_pow_finrank (K := ZMod 2), Nat.card_zmod,
      (AdjoinRoot.powerBasis (toPoly_poly_ne_zero f)).finrank, AdjoinRoot.powerBasis_dim, natDegree_toPoly_poly]
  have hne : residue f x ≠ 0 := fun h =>
    h0 (eq_of_residue_eq hx (Nat.two_pow_pos _) (h.trans (residue_zero f).symm))
  rw [← hcard]
  exact FiniteField.pow_card_sub_one_eq_one _ hne

/-- Settles O54: x times x^(2^d - 2) is x^(2^d - 1), which is 1. -/
theorem gfInvIsTheInverse : Obligations.GfInvIsTheInverse := by
  intro f x hx h0
  have h2 := two_lt_two_pow_degree f
  apply eq_of_residue_eq (gfMul_lt hx _) (one_lt_two.trans h2)
  rw [gfInv, residue_gfMul x (gfExp_lt f x _), residue_gfExp hx, ← pow_succ', residue_one,
    show 2 ^ f.degree - 2 + 1 = 2 ^ f.degree - 1 by omega, residue_pow_eq_one hx h0]

end Sys2Proof.Machine
end

section
/-! The GF(2) products (R181, R183, R185): vec_mat one entry at a time, its linearity in the vector, and the laws of the
product of matrices that follow. -/

namespace Sys2Proof.Machine

open Sys2Proof

/-! ### The sum of R181 -/

/-- The two running sums of R181 add up: bit i of v ^^^ w takes A[i] in iff exactly one of v and w does. -/
theorem vecMatFrom_xor_vector (v w : Nat) (a : List Nat) : ∀ i r r' : Nat,
    vecMatFrom (v ^^^ w) i (r ^^^ r') a = vecMatFrom v i r a ^^^ vecMatFrom w i r' a := by
  induction a with
  | nil => intro i r r'; rfl
  | cons x a ih =>
    intro i r r'
    simp only [vecMatFrom, ← ih, Nat.testBit_xor]
    congr 1
    cases v.testBit i <;> cases w.testBit i
    · simp
    · simp [Nat.xor_assoc]
    · simp [Nat.xor_right_comm]
    · simp [Nat.xor_comm r' x, Nat.xor_assoc]

/-- vec_mat is linear in its vector (R185). -/
theorem vecMat_xor (v w : Nat) (a : List Nat) : vecMat (v ^^^ w) a = vecMat v a ^^^ vecMat w a :=
  vecMatFrom_xor_vector v w a 0 0 0

@[simp] theorem vecMat_zero (a : List Nat) : vecMat 0 a = 0 := by
  simpa using vecMat_xor 0 0 a

theorem vecMatFrom_append (v : Nat) (a b : List Nat) : ∀ i r : Nat,
    vecMatFrom v i r (a ++ b) = vecMatFrom v (i + a.length) (vecMatFrom v i r a) b := by
  induction a with
  | nil => intro i r; rfl
  | cons x a ih =>
    intro i r
    rw [List.cons_append, vecMatFrom, vecMatFrom, ih, List.length_cons, Nat.add_right_comm, Nat.add_assoc]

/-- One entry more at the end of the matrix (R181). -/
theorem vecMat_concat (v : Nat) (a : List Nat) (x : Nat) :
    vecMat v (a ++ [x]) = vecMat v a ^^^ if v.testBit a.length then x else 0 := by
  rw [vecMat, vecMatFrom_append, Nat.zero_add, vecMatFrom, vecMatFrom]
  split_ifs
  · rfl
  · exact (Nat.xor_zero _).symm

/-- A vector with bit j alone picks entry j. -/
theorem vecMat_two_pow (j : Nat) (a : List Nat) : vecMat (2 ^ j) a = a[j]?.getD 0 := by
  induction a using List.reverseRecOn with
  | nil => rfl
  | append_singleton a x ih =>
    rw [vecMat_concat, ih, Nat.testBit_two_pow]
    rcases Nat.lt_trichotomy j a.length with h | rfl | h
    · simp [List.getElem?_append_left h, h.ne]
    · simp
    · rw [List.getElem?_eq_none h.le, List.getElem?_eq_none (by simpa using h)]
      simp [h.ne']

/-! ### The product of matrices and the identity -/

/-- Entry by entry, A·B is vec_mat into B of the entries of A (R183). -/
theorem vecMatFrom_matMat (v : Nat) (a b : List Nat) : ∀ i r : Nat,
    vecMatFrom v i (vecMat r b) (matMat a b) = vecMat (vecMatFrom v i r a) b := by
  induction a with
  | nil => intro i r; rfl
  | cons x a ih =>
    intro i r
    have hstep : (if v.testBit i then vecMat r b ^^^ vecMat x b else vecMat r b) =
        vecMat (if v.testBit i then r ^^^ x else r) b := by
      split_ifs
      · exact (vecMat_xor r x b).symm
      · rfl
    rw [matMat, List.map_cons, vecMatFrom, hstep, vecMatFrom, ← ih, matMat]

/-- vec_mat with a product is vec_mat twice (R185). -/
theorem vecMat_matMat (v : Nat) (a b : List Nat) : vecMat v (matMat a b) = vecMat (vecMat v a) b := by
  have h := vecMatFrom_matMat v a b 0 0
  rwa [vecMat_zero] at h

/-- The product of matrices is associative, since each entry is a vec_mat with a product (R185). -/
theorem matMat_assoc (a b c : List Nat) : matMat (matMat a b) c = matMat a (matMat b c) := by
  simp only [matMat, List.map_map, ← vecMat_matMat, Function.comp_def]

theorem identityMatrix_succ (d : Nat) : identityMatrix (d + 1) = identityMatrix d ++ [2 ^ d] := by
  simp [identityMatrix, List.range_succ]

@[simp] theorem identityMatrix_length (d : Nat) : (identityMatrix d).length = d := by simp [identityMatrix]

/-- vec_mat with the first d entries of the identity keeps the d low bits. -/
theorem vecMat_identityMatrix_eq_mod (v d : Nat) : vecMat v (identityMatrix d) = v % 2 ^ d := by
  induction d with
  | zero => simp [identityMatrix, vecMat, vecMatFrom, Nat.mod_one]
  | succ d ih =>
    rw [identityMatrix_succ, vecMat_concat, ih, identityMatrix_length]
    apply Nat.eq_of_testBit_eq
    intro j
    rw [Nat.testBit_xor, Nat.testBit_mod_two_pow, Nat.testBit_mod_two_pow]
    obtain rfl | h := eq_or_ne d j
    · split_ifs with hb <;> simp [hb]
    · have hlt : j < d + 1 ↔ j < d := by omega
      split_ifs <;> simp [hlt, Nat.testBit_two_pow_of_ne h]

theorem vecMat_identityMatrix {v d : Nat} (h : v < 2 ^ d) : vecMat v (identityMatrix d) = v := by
  rw [vecMat_identityMatrix_eq_mod, Nat.mod_eq_of_lt h]

/-- The identity is neutral on the left: its entry j picks entry j (R185). -/
theorem identityMatrix_matMat (b : List Nat) : matMat (identityMatrix b.length) b = b := by
  apply List.ext_getElem (by simp)
  intro j _ hj
  simp [matMat, identityMatrix, vecMat_two_pow, hj]

/-- The identity is neutral on the right, on field elements (R185). -/
theorem matMat_identityMatrix {d : Nat} {a : List Nat} (h : EntriesBelow d a) :
    matMat a (identityMatrix d) = a :=
  (List.map_congr_left fun x hx => vecMat_identityMatrix (h x hx)).trans (List.map_id' a)

/-! ### Matrices that do not commute -/

/-- The d-entry matrix whose entry i is x and whose other entries are 0. -/
def singleEntry (d i x : Nat) : List Nat := (List.replicate d 0).set i x

@[simp] theorem singleEntry_length (d i x : Nat) : (singleEntry d i x).length = d := by simp [singleEntry]

theorem singleEntry_entriesBelow {d x : Nat} (i : Nat) (h : x < 2 ^ d) : EntriesBelow d (singleEntry d i x) := by
  intro y hy
  obtain hy | rfl := List.mem_or_eq_of_mem_set hy
  · rw [List.eq_of_mem_replicate hy]
    exact Nat.two_pow_pos d
  · exact h

theorem singleEntry_getElem? {d i : Nat} (h : i < d) (x : Nat) : (singleEntry d i x)[i]? = some x := by
  simp [singleEntry, h]

/-- Entry 0 of A·B is 1, bit 1 of A[0] picking B[1], and entry 0 of B·A is 0, B[0] being 0. -/
theorem singleEntry_not_commute {d : Nat} (h : 1 < d) :
    matMat (singleEntry d 0 2) (singleEntry d 1 1) ≠ matMat (singleEntry d 1 1) (singleEntry d 0 2) := by
  have hab : (matMat (singleEntry d 0 2) (singleEntry d 1 1))[0]? = some 1 := by
    have hpick : vecMat 2 (singleEntry d 1 1) = 1 := by
      rw [← pow_one 2, vecMat_two_pow, singleEntry_getElem? h, Option.getD_some]
    rw [matMat, List.getElem?_map, singleEntry_getElem? h.pos, Option.map_some, hpick]
  have hba : (matMat (singleEntry d 1 1) (singleEntry d 0 2))[0]? = some 0 := by
    have hzero : (singleEntry d 1 1)[0]? = some 0 := by simp [singleEntry, h.pos]
    rw [matMat, List.getElem?_map, hzero, Option.map_some, vecMat_zero]
  intro heq
  rw [heq, hba] at hab
  cases hab

/-- Settles O55: linearity gives the product law and with it associativity; the identity has the entries 2^j, each of
which picks one bit or one entry; and two matrices with a single entry each do not commute. -/
theorem matrixLaws : Obligations.MatrixLaws := by
  refine ⟨fun f v w a b c hv _ _ hb _ ha _ _ => ⟨vecMat_xor v w a, matMat_assoc a b c, vecMat_matMat v a b,
    vecMat_identityMatrix hv, hb ▸ identityMatrix_matMat b, matMat_identityMatrix ha⟩, fun f => ?_⟩
  have hd := degree_pos f
  have h2 := two_lt_two_pow_degree f
  exact ⟨singleEntry f.degree 0 2, singleEntry f.degree 1 1, singleEntry_length _ _ _, singleEntry_length _ _ _,
    singleEntry_entriesBelow 0 h2, singleEntry_entriesBelow 1 (one_lt_two.trans h2),
    singleEntry_not_commute (by omega)⟩

end Sys2Proof.Machine
end

section
/-! The matrix commands (R182, R184): what each writes where its operands are good. -/

namespace Sys2Proof.Machine

open Sys2Proof

/-- The product of matrices stays in the field (R183). -/
theorem matMat_entriesBelow {d : Nat} (a : List Nat) {b : List Nat} (h : EntriesBelow d b) :
    EntriesBelow d (matMat a b) := by
  intro x hx
  obtain ⟨row, -, rfl⟩ := List.mem_map.mp hx
  exact vecMat_lt row h

/-- M[k] reads back as it was written, where its entries are field elements (R38). -/
theorem Memory.matrix_setMatrix_of_entriesBelow (m : Memory) (k : Nat) {f : FieldSel} {c : List Nat}
    (hl : c.length = f.degree) (hc : EntriesBelow f.degree c) : (m.setMatrix k c).matrix k f.degree = some c := by
  have hmod : c.map (· % 2 ^ 256) = c :=
    (List.map_congr_left fun x hx => Nat.mod_eq_of_lt ((hc x hx).trans_le
      (Nat.pow_le_pow_right (by omega) (degree_le f)))).trans (List.map_id' c)
  rw [← hl, Memory.matrix_setMatrix_same, hmod]

/-- Settles O26: vector and matrix pass their range checks, and the product is in the field. -/
theorem vecmatCompletes : Obligations.VecmatCompletes := by
  intro s rd rs1 ms1 v a hv ha hltv hlta
  have hvv := (validOperand_iff s.fsel v).mpr hltv
  have hva := (validMatrix_iff s.fsel a).mpr hlta
  exact exec_of_setElem (vecMat_lt v hlta)
    (by simp [bodyOf, vecmatBody, State.fetchElem, State.fetchMatrix, hv, ha, hvv, hva])

/-- Settles O27: both matrices are read and pass their range checks before the one store, which is their product. -/
theorem matmatCompletes : Obligations.MatmatCompletes := by
  intro s md ms1 ms2 a b ha hb hlta hltb
  have hva := (validMatrix_iff s.fsel a).mpr hlta
  have hvb := (validMatrix_iff s.fsel b).mpr hltb
  have hbody : bodyOf (.matmat md ms1 ms2) s = .ok (s.mem.setMatrix md.toNat (matMat a b)) := by
    simp [bodyOf, matmatBody, State.fetchMatrix, ha, hb, hva, hvb]
  have hl : (matMat a b).length = s.fsel.degree := by rw [matMat_length, Memory.matrix_length ha]
  obtain ⟨t, ht, hok, hmem⟩ := exec_of_ok hbody
  refine ⟨t, ht, hok, ?_, ?_⟩ <;> rw [hmem]
  · exact Memory.matrix_setMatrix_of_entriesBelow _ _ hl (matMat_entriesBelow a hltb)
  · rw [← hl]
    exact Memory.setMatrix_keptOutside _ _ _

end Sys2Proof.Machine
end

section
/-! The bytes of the stream that each part of a layer call reads (R203 to R208), and the call bit by bit (R206, R207,
R210). -/

namespace Sys2Proof.Machine

open Sys2Proof

section
variable (f : FieldSel) (xof : Nat → Byte)

/-! ### Where the stream stands -/

theorem lowerRows_position (pos : Nat) : (lowerRows f xof f.degree 0 pos).2 = pos + rowBytes f := by
  simpa only [Nat.zero_add, ← rowOffset_lower] using (lowerRows_rows f xof f.degree 0 pos).1

theorem upperRows_position (pos : Nat) : (upperRows xof f.degree 0 pos).2 = pos + rowBytes f := by
  simpa only [Nat.zero_add, ← rowOffset_upper] using (upperRows_rows xof f.degree 0 pos).1

theorem oneLayer_position (pos : Nat) : (oneLayer f xof pos).2 = pos + 2 * rowBytes f := by
  rw [oneLayer, upperRows_position, lowerRows_position]
  omega

/-- Layer k of a call, and where the stream stands behind `s` layers. -/
theorem layersFrom_layers (s pos : Nat) : (layersFrom f xof s pos).2 = pos + 2 * s * rowBytes f ∧
    ∀ k, k < s → (layersFrom f xof s pos).1[k]? = some (oneLayer f xof (pos + 2 * k * rowBytes f)).1 := by
  induction s generalizing pos with
  | zero => exact ⟨by simp [layersFrom], fun k hk => absurd hk (Nat.not_lt_zero k)⟩
  | succ s ih =>
    obtain ⟨hpos, hlayers⟩ := ih (oneLayer f xof pos).2
    have hstep : ∀ n, (oneLayer f xof pos).2 + 2 * n * rowBytes f = pos + 2 * (n + 1) * rowBytes f := fun n => by
      rw [oneLayer_position]
      ring
    refine ⟨hpos.trans (hstep s), fun k hk => ?_⟩
    cases k with
    | zero => simp [layersFrom]
    | succ k => exact (hlayers k (by omega)).trans (by rw [hstep])

/-- Every matrix of a call is that of one layer, at its place in the stream. -/
theorem generateLayer_getElem?_eq_some {s k : Nat} {a : List Nat} (h : (generateLayer f xof s).1[k]? = some a) :
    a = (oneLayer f xof (2 * k * rowBytes f)).1 := by
  obtain ⟨hk, -⟩ := List.getElem?_eq_some_iff.mp h
  have hlayer := (layersFrom_layers f xof s 0).2 k (by rwa [← layersFrom_length f xof s 0])
  rw [Nat.zero_add] at hlayer
  exact Option.some.inj (h.symm.trans hlayer)

theorem generateLayer_constant (s : Nat) :
    (generateLayer f xof s).2 = fromBytes (readStream xof (2 * s * rowBytes f) f.bytes) := by
  rw [generateLayer, (layersFrom_layers f xof s 0).1, Nat.zero_add]

/-! ### What a call does not read -/

section
variable {xof : Nat → Byte} {xof' : Nat → Byte} {bound : Nat} (h : ∀ p, p < bound → xof p = xof' p)
include h

theorem lowerRow_congr {pos i : Nat} (hn : pos + lowerLength f.degree i ≤ bound) :
    lowerRow f xof pos i = lowerRow f xof' pos i := by
  rw [lowerRow, lowerRow, readStream_congr h hn]

theorem upperRow_congr {pos i : Nat} (hn : pos + upperLength i ≤ bound) :
    upperRow xof pos i = upperRow xof' pos i := by
  rw [upperRow, upperRow, readStream_congr h hn]

theorem lowerRows_congr {n i pos : Nat} (hn : (lowerRows f xof n i pos).2 ≤ bound) :
    lowerRows f xof n i pos = lowerRows f xof' n i pos := by
  induction n generalizing i pos with
  | zero => rfl
  | succ n ih =>
    rw [lowerRows] at hn
    have hle : pos + lowerLength f.degree i ≤ (lowerRows f xof n (i + 1) (pos + lowerLength f.degree i)).2 :=
      (lowerRows_rows f xof n _ _).1 ▸ Nat.le_add_right _ _
    rw [lowerRows, lowerRows, lowerRow_congr f h (hle.trans hn), ih hn]

theorem upperRows_congr {n i pos : Nat} (hn : (upperRows xof n i pos).2 ≤ bound) :
    upperRows xof n i pos = upperRows xof' n i pos := by
  induction n generalizing i pos with
  | zero => rfl
  | succ n ih =>
    rw [upperRows] at hn
    have hle : pos + upperLength i ≤ (upperRows xof n (i + 1) (pos + upperLength i)).2 :=
      (upperRows_rows xof n _ _).1 ▸ Nat.le_add_right _ _
    rw [upperRows, upperRows, upperRow_congr h (hle.trans hn), ih hn]

theorem oneLayer_congr {pos : Nat} (hn : pos + 2 * rowBytes f ≤ bound) :
    oneLayer f xof pos = oneLayer f xof' pos := by
  have hlower := lowerRows_congr f h (n := f.degree) (i := 0) (pos := pos) (by rw [lowerRows_position]; omega)
  have hupper := upperRows_congr h (n := f.degree) (i := 0) (pos := (lowerRows f xof' f.degree 0 pos).2)
    (by rw [upperRows_position, lowerRows_position]; omega)
  rw [oneLayer, oneLayer, hlower, hupper]

theorem layersFrom_congr {s pos : Nat} (hn : pos + 2 * s * rowBytes f ≤ bound) :
    layersFrom f xof s pos = layersFrom f xof' s pos := by
  induction s generalizing pos with
  | zero => rfl
  | succ s ih =>
    have hs : 2 * (s + 1) * rowBytes f = 2 * rowBytes f + 2 * s * rowBytes f := by ring
    have hlayer := oneLayer_congr f h (pos := pos) (by omega)
    have hrest := ih (pos := (oneLayer f xof' pos).2) (by rw [oneLayer_position]; omega)
    rw [layersFrom, layersFrom, hlayer, hrest]

/-- A call reads nothing behind its constant (R208). -/
theorem generateLayer_congr {s : Nat} (hn : 2 * s * rowBytes f + f.bytes ≤ bound) :
    generateLayer f xof s = generateLayer f xof' s := by
  have hlayers := layersFrom_congr f h (s := s) (pos := 0) (by omega)
  have hpos : (layersFrom f xof' s 0).2 = 2 * s * rowBytes f := by
    rw [(layersFrom_layers f xof' s 0).1, Nat.zero_add]
  rw [generateLayer, generateLayer, hlayers, hpos, readStream_congr h hn]

end

/-! ### The rows and matrices bit by bit -/

variable {f xof}

/-- Row i of the lower factor of a layer is what R204 says, its chunk at the row's place in the stream. -/
theorem lowerRows_getElem?_eq_some {pos i x : Nat} (h : (lowerRows f xof f.degree 0 pos).1[i]? = some x) :
    i < f.degree ∧ IsLowerRow f xof (pos + rowOffset (fun m => (f.degree - m + 6) / 8) i) i x := by
  obtain ⟨hi, -⟩ := List.getElem?_eq_some_iff.mp h
  rw [lowerRows_length] at hi
  have hrow := (lowerRows_rows f xof f.degree 0 pos).2 i hi
  simp only [Nat.zero_add] at hrow
  obtain rfl := Option.some.inj (h.symm.trans hrow)
  exact ⟨hi, lowerRow_isLowerRow f xof _ i hi⟩

/-- Row i of the upper factor of a layer is what R205 says, its chunk at the row's place in the stream. -/
theorem upperRows_getElem?_eq_some {n pos i x : Nat} (h : (upperRows xof n 0 pos).1[i]? = some x) :
    i < n ∧ IsUpperRow xof (pos + rowOffset (fun m => (m + 7) / 8) i) i x := by
  obtain ⟨hi, -⟩ := List.getElem?_eq_some_iff.mp h
  rw [upperRows_length] at hi
  have hrow := (upperRows_rows xof n 0 pos).2 i hi
  simp only [Nat.zero_add] at hrow
  obtain rfl := Option.some.inj (h.symm.trans hrow)
  exact ⟨hi, upperRow_isUpperRow xof _ i⟩

variable (f xof)

theorem oneLayer_isLayerMatrix (k : Nat) : IsLayerMatrix f xof k (oneLayer f xof (2 * k * rowBytes f)).1 := by
  refine ⟨_, _, lowerRows_length _ _ _ _ _, upperRows_length _ _ _ _,
    fun i x hx => (lowerRows_getElem?_eq_some hx).2, fun i x hx => ?_, rfl⟩
  have hpos : (2 * k + 1) * rowBytes f = (lowerRows f xof f.degree 0 (2 * k * rowBytes f)).2 := by
    rw [lowerRows_position]
    ring
  rw [hpos]
  exact (upperRows_getElem?_eq_some hx).2

/-- The first layers of a longer call are those of a shorter one: the stream stands where it stood (R210). -/
theorem layersFrom_take {s1 s2 : Nat} (h : s1 ≤ s2) (pos : Nat) :
    (layersFrom f xof s1 pos).1 = (layersFrom f xof s2 pos).1.take s1 := by
  induction s1 generalizing s2 pos with
  | zero => rfl
  | succ s1 ih =>
    obtain ⟨s2, rfl⟩ := Nat.exists_eq_add_of_le' h
    rw [← Nat.add_assoc, layersFrom, layersFrom, List.take_succ_cons, ih (s2 := s2 + s1) (by omega)]

end

/-! ### The layer function (R206 to R210) -/

/-- Settles O57: the positions behind each part are known, and a call reads nothing behind its constant. -/
theorem layerStreamBytes : Obligations.LayerStreamBytes := by
  refine ⟨fun f xof pos => ⟨lowerRows_position f xof pos, upperRows_position f xof pos⟩,
    fun f xof s => ⟨?_, generateLayer_constant f xof s⟩, fun f xof xof' s h => generateLayer_congr f h le_rfl,
    fun xof xof' => ⟨fun h => ?_, fun h => ?_, fun h => ?_⟩⟩
  · rw [(layersFrom_layers f xof s 0).1, Nat.zero_add]
  all_goals exact generateLayer_congr _ h (by decide)

/-- Settles O58: layer k is read behind the k layers before it, in a longer call as in a shorter one. -/
theorem layersExtend : Obligations.LayersExtend := by
  refine ⟨fun f xof s => ⟨layersFrom_length f xof s 0, fun k a ha => ?_, fun j => ?_⟩,
    fun f xof s1 s2 h => layersFrom_take f xof h 0⟩
  · rw [generateLayer_getElem?_eq_some f xof ha]
    exact oneLayer_isLayerMatrix f xof k
  · rw [generateLayer_constant, testBit_readStream, degree_eq_eight_bytes]

end Sys2Proof.Machine
end

section
/-! Triangular and invertible matrices (R186, R209), and the layers' own. -/

namespace Sys2Proof.Machine

open Sys2Proof

/-! ### A unit triangular matrix is invertible -/

/-- Where entry i alone, of those that bits of `v` pick, can have bit k, bit k of the sum of R181 is that entry's. -/
theorem testBit_vecMat_of_pivot {v k i : Nat} {a : List Nat}
    (h : ∀ j x, j ≠ i → a[j]? = some x → v.testBit j = true → x.testBit k = false) :
    (vecMat v a).testBit k = (v.testBit i && (a[i]?.getD 0).testBit k) := by
  induction a using List.reverseRecOn with
  | nil => simp [vecMat, vecMatFrom]
  | append_singleton a x ih =>
    have ih := ih fun j y hji hy => h j y hji (by
      rw [List.getElem?_append_left (List.getElem?_eq_some_iff.mp hy).1, hy])
    have hlast : a.length ≠ i → v.testBit a.length = true → x.testBit k = false := fun hne => h _ x hne (by simp)
    rw [vecMat_concat, Nat.testBit_xor, ih]
    rcases Nat.lt_trichotomy i a.length with hi | rfl | hi
    · rw [List.getElem?_append_left hi]
      split_ifs with hv
      · simp [hlast hi.ne' hv]
      · simp
    · cases hv : v.testBit a.length <;> simp
    · rw [List.getElem?_eq_none (l := a) hi.le, List.getElem?_eq_none (l := a ++ [x]) (by simpa using hi)]
      split_ifs with hv
      · simp [hlast hi.ne hv]
      · simp

/-- Entry i has bit i, and every other bit it has is that of a later row in the order of `rank`: a unit triangular
matrix, lower for the order of the rows and upper for the reverse one (R209). -/
def UnitTriangular (rank : Nat → Nat) (a : List Nat) : Prop :=
  ∀ i x, a[i]? = some x → x.testBit i = true ∧ ∀ j, j ≠ i → x.testBit j = true → rank i < rank j

/-- vec_mat with a unit triangular matrix takes no vector but 0 to 0: going by rank, bit i of the result is bit i
of the vector. -/
theorem UnitTriangular.eq_zero_of_vecMat {rank : Nat → Nat} {a : List Nat} (ha : UnitTriangular rank a) {v : Nat}
    (hv : v < 2 ^ a.length) (h : vecMat v a = 0) : v = 0 := by
  have hbit : ∀ i, v.testBit i = false := fun i => by
    induction hr : rank i using Nat.strong_induction_on generalizing i with
    | _ r ih =>
      subst hr
      by_cases hi : i < a.length
      · have hother : ∀ j x, j ≠ i → a[j]? = some x → v.testBit j = true → x.testBit i = false := by
          intro j x hji hx hvj
          by_contra hxi
          have hlt := (ha j x hx).2 i hji.symm (by simpa using hxi)
          rw [ih _ hlt j rfl] at hvj
          cases hvj
        have hpivot := testBit_vecMat_of_pivot hother
        rw [h, List.getElem?_eq_getElem hi, Option.getD_some, (ha i _ (List.getElem?_eq_getElem hi)).1] at hpivot
        simpa using hpivot.symm
      · exact Nat.testBit_lt_two_pow (hv.trans_le (Nat.pow_le_pow_right two_pos (not_lt.mp hi)))
  exact Nat.eq_of_testBit_eq fun i => by rw [hbit, Nat.zero_testBit]

/-- A linear map of the finite set of values below 2^d is a bijection if it takes 0 alone to 0. -/
theorem invertible_of_eq_zero {d : Nat} {a : List Nat} (ha : EntriesBelow d a)
    (h : ∀ v, v < 2 ^ d → vecMat v a = 0 → v = 0) : Invertible d a := by
  have hinj : ∀ v w, v < 2 ^ d → w < 2 ^ d → vecMat v a = vecMat w a → v = w := fun v w hv hw heq => by
    refine Nat.xor_eq_zero_iff.mp (h _ (Nat.xor_lt_two_pow hv hw) ?_)
    rw [vecMat_xor, heq, Nat.xor_self]
  have hsurj : Set.SurjOn (vecMat · a) (Finset.range (2 ^ d)) (Finset.range (2 ^ d)) := by
    refine Finset.surjOn_of_injOn_of_card_le _ (fun v _ => ?_) (fun v hv w hw => ?_) le_rfl
    · simpa using vecMat_lt v ha
    · exact hinj v w (by simpa using hv) (by simpa using hw)
  refine ⟨fun v _ => vecMat_lt v ha, fun w hw => ?_⟩
  obtain ⟨v, hv, rfl⟩ := hsurj (by simpa using hw)
  have hv : v < 2 ^ d := by simpa using hv
  exact ⟨v, ⟨hv, rfl⟩, fun v' hv' heq => hinj v' v hv' hv heq⟩

theorem UnitTriangular.invertible {rank : Nat → Nat} {d : Nat} {a : List Nat} (ha : UnitTriangular rank a)
    (hl : a.length = d) (hb : EntriesBelow d a) : Invertible d a :=
  invertible_of_eq_zero hb fun _ hv => ha.eq_zero_of_vecMat (hl ▸ hv)

/-- The product acts as one map after the other (R185), so it is invertible where both factors are. -/
theorem Invertible.matMat {d : Nat} {a b : List Nat} (ha : Invertible d a) (hb : Invertible d b) :
    Invertible d (matMat a b) := by
  obtain ⟨hlta, hbija⟩ := ha
  obtain ⟨hltb, hbijb⟩ := hb
  simp only [Invertible, vecMat_matMat]
  refine ⟨fun v hv => hltb _ (hlta v hv), fun w hw => ?_⟩
  obtain ⟨u, ⟨hu, rfl⟩, hu_uniq⟩ := hbijb w hw
  obtain ⟨v, ⟨hv, rfl⟩, hv_uniq⟩ := hbija u hu
  exact ⟨v, ⟨hv, rfl⟩, fun v' hv' heq => hv_uniq v' hv' (hu_uniq _ (hlta v' hv') heq)⟩

/-! ### The factors of a layer -/

section
variable (f : FieldSel) (xof : Nat → Byte) (pos : Nat)

theorem lowerRows_unitTriangular : UnitTriangular id (lowerRows f xof f.degree 0 pos).1 := by
  intro i x hx
  obtain ⟨-, hrow⟩ := lowerRows_getElem?_eq_some hx
  refine ⟨by simp [hrow i], fun j hji hj => ?_⟩
  simp only [hrow j, hji, decide_false, Bool.false_or, Bool.and_eq_true, decide_eq_true_eq] at hj
  exact hj.1.1

theorem upperRows_unitTriangular (n : Nat) : UnitTriangular (n - ·) (upperRows xof n 0 pos).1 := by
  intro i x hx
  obtain ⟨hi, hrow⟩ := upperRows_getElem?_eq_some hx
  refine ⟨by simp [hrow i], fun j hji hj => ?_⟩
  simp only [hrow j, hji, decide_false, Bool.false_or, Bool.and_eq_true, decide_eq_true_eq] at hj
  exact Nat.sub_lt_sub_left (hj.1.trans hi) hj.1

theorem lowerRows_entriesBelow : EntriesBelow f.degree (lowerRows f xof f.degree 0 pos).1 := by
  intro x hx
  obtain ⟨i, hx⟩ := List.mem_iff_getElem?.mp hx
  obtain ⟨hi, hrow⟩ := lowerRows_getElem?_eq_some hx
  exact Nat.lt_pow_two_of_testBit x fun j hj => by simp [hrow j, hj.not_gt, (hi.trans_le hj).ne']

theorem upperRows_entriesBelow (n : Nat) : EntriesBelow n (upperRows xof n 0 pos).1 := by
  intro x hx
  obtain ⟨i, hx⟩ := List.mem_iff_getElem?.mp hx
  obtain ⟨hi, hrow⟩ := upperRows_getElem?_eq_some hx
  have hlt : ∀ j, n ≤ j → i < j := fun j hj => hi.trans_le hj
  exact Nat.lt_pow_two_of_testBit x fun j hj => by simp [hrow j, (hlt j hj).not_gt, (hlt j hj).ne']

theorem oneLayer_invertible : Invertible f.degree (oneLayer f xof pos).1 :=
  Invertible.matMat
    ((upperRows_unitTriangular xof _ _).invertible (upperRows_length _ _ _ _) (upperRows_entriesBelow xof _ _))
    ((lowerRows_unitTriangular f xof pos).invertible (lowerRows_length _ _ _ _ _) (lowerRows_entriesBelow f xof pos))

theorem generateLayer_entriesBelow {s : Nat} {a : List Nat} (ha : a ∈ (generateLayer f xof s).1) :
    EntriesBelow f.degree a := by
  obtain ⟨k, hk⟩ := List.mem_iff_getElem?.mp ha
  rw [generateLayer_getElem?_eq_some f xof hk]
  exact matMat_entriesBelow _ (lowerRows_entriesBelow f xof _)

end

/-- Settles O56: each row's bits say that the factors are unit triangular, and their product is one invertible map after
another. -/
theorem layersAreInvertible : Obligations.LayersAreInvertible := by
  refine ⟨fun f xof pos i x hx => ?_, fun f xof pos i x hx => ?_, fun f xof s a ha => ?_⟩
  · obtain ⟨-, hrow⟩ := lowerRows_getElem?_eq_some hx
    exact ⟨lowerRows_entriesBelow f xof pos x (List.mem_of_getElem? hx), by simp [hrow i],
      fun j hj => by simp [hrow j, hj.ne, hj.not_gt]⟩
  · obtain ⟨-, hrow⟩ := upperRows_getElem?_eq_some hx
    exact ⟨by simp [hrow i], fun j hj => by simp [hrow j, hj.ne', hj.not_gt]⟩
  · obtain ⟨k, hk⟩ := List.mem_iff_getElem?.mp ha
    rw [generateLayer_getElem?_eq_some f xof hk]
    exact oneLayer_invertible f xof _

end Sys2Proof.Machine
end

section
/-! GENLAYER (R201) where its IV is written and of the field's length, and the lengths GENLAYER and EVAL refuse (R201,
R230). -/

namespace Sys2Proof.Machine

open Sys2Proof

/-- The first entries of M[k] depend on their bytes alone. -/
theorem Memory.matrix_congr {m m' : Memory} {k d : Nat}
    (h : ∀ x, entryBase k 0 ≤ x → x < entryBase k 0 + 32 * d → m.byteAt x = m'.byteAt x) :
    m.matrix k d = m'.matrix k d := by
  rw [Memory.matrix_eq_entries, Memory.matrix_eq_entries]
  exact Memory.entries_congr _ _ _ _ fun j hj => h _ (by omega) (by omega)

/-- Matrices stored from M[k] on read back one after the other: no two share a byte (R76, R201). -/
theorem Memory.matrix_setMatrices {f : FieldSel} {cs : List (List Nat)}
    (hcs : ∀ c ∈ cs, c.length = f.degree ∧ EntriesBelow f.degree c) (m : Memory) (k : Nat) {j : Nat}
    (hj : j < cs.length) : (m.setMatrices k cs).matrix (k + j) f.degree = cs[j]? := by
  induction cs generalizing m k j with
  | nil => exact absurd hj (Nat.not_lt_zero j)
  | cons c cs ih =>
    obtain ⟨⟨hl, hb⟩, hcs⟩ := List.forall_mem_cons.mp hcs
    rw [Memory.setMatrices]
    cases j with
    | zero =>
      have hd := degree_le f
      have hkept : ((m.setMatrix k c).setMatrices (k + 1) cs).matrix k f.degree =
          (m.setMatrix k c).matrix k f.degree :=
        Memory.matrix_congr fun x _ hx => Memory.byteAt_setMatrices (fun c hc => (hcs c hc).1) _ _ _
          fun j hj _ => .inl (by rw [entryBase] at hx ⊢; omega)
      exact hkept.trans (Memory.matrix_setMatrix_of_entriesBelow m k hl hb)
    | succ j =>
      rw [show k + (j + 1) = k + 1 + j by omega, List.getElem?_cons_succ]
      exact ih hcs _ _ (by simpa using hj)

theorem Memory.elem_setElem_of_lt (m : Memory) (r : ElemIx) {f : FieldSel} {x : Nat} (h : x < 2 ^ f.degree) :
    (m.setElem r x).elem r = some x := by
  rw [Memory.elem_setElem_same, Nat.mod_eq_of_lt (h.trans_le (Nat.pow_le_pow_right two_pos (degree_le f)))]

/-- The element window lies below the matrix window (R73). -/
theorem Memory.matrix_setElem (m : Memory) (r : ElemIx) (x k d : Nat) :
    (m.setElem r x).matrix k d = m.matrix k d := by
  have hr := r.isLt
  apply Memory.matrix_write_outside
  rw [toBytes_length, elemBase, entryBase]
  omega

theorem bodyOf_genlayer_eq_ok {s : State} {iv : List Byte} (rd : ElemIx) (imm8 : BitVec 8)
    (hl : s.ivlen.toNat = s.fsel.bytes) (hiv : s.mem.readBytes ivBase s.fsel.bytes = some iv) :
    bodyOf (.genlayer rd imm8) s =
      .ok ((s.mem.setMatrices 0 (generateLayer s.fsel (xofStream iv) imm8.toNat).1).setElem rd
        (generateLayer s.fsel (xofStream iv) imm8.toNat).2) := by
  simp [bodyOf, genlayerBody, State.fetchBuffer, hl, hiv]

/-- Settles O28: the matrices read back from M[0..s-1], which the store of the constant leaves alone, and nothing else
changes, as in every completion of GENLAYER. -/
theorem genlayerCompletes : Obligations.GenlayerCompletes := by
  intro s rd imm8 iv _ _ hl hiv
  obtain ⟨t, ht, hok, hmem⟩ := exec_of_ok (bodyOf_genlayer_eq_ok rd imm8 hl hiv)
  obtain ⟨-, -, hframe⟩ := genlayerFrame rd imm8 s t ht
  refine ⟨t, ht, hok, fun k hk => ?_, ?_, hframe⟩
  · have hread := Memory.matrix_setMatrices (fun c hc => ⟨layersFrom_entries _ _ _ _ c hc,
      generateLayer_entriesBelow _ _ hc⟩) s.mem 0 (hk.trans_eq (layersFrom_length s.fsel (xofStream iv) _ 0).symm)
    rw [Nat.zero_add] at hread
    rw [hmem, Memory.matrix_setElem]
    exact hread
  · rw [hmem, Memory.elem_setElem_of_lt _ _ (generateLayer_constant_lt _ _ _)]

/-- Settles O38: the length checks stand before every read. -/
theorem invalidInputCases : Obligations.InvalidInputCases := by
  refine ⟨fun s rd imm8 hl => exec_of_raise (c := .invalidInput) ?_,
    fun s h => exec_of_raise (c := .invalidInput) ?_⟩
  · have hbad := beq_eq_false_iff_ne.mpr hl
    simp [bodyOf, genlayerBody, hbad]
  · cases hv : variantOfLength s.ptlen.toNat with
    | none => simp [bodyOf, evalBody, hv]
    | some f =>
      have hp := (variantOfLength_eq_some_iff _ _).mp hv
      have hne : s.ivlen ≠ s.ptlen := h.resolve_left fun ⟨h16, h24, h32⟩ => by
        cases f
        · exact h16 hp
        · exact h24 hp
        · exact h32 hp
      have hbad : (s.ivlen.toNat == s.ptlen.toNat) = false :=
        beq_eq_false_iff_ne.mpr fun he => hne (BitVec.eq_of_toNat_eq he)
      simp [bodyOf, evalBody, hv, hbad]

end Sys2Proof.Machine
end

section
/-! EVAL (R230, R231): what it computes and stores where its buffers are written and its lengths agree, and that nothing
else of the state decides it (R232). -/

namespace Sys2Proof.Machine

open Sys2Proof

/-! ### The one-way function (R231) -/

theorem generateLayer_two (f : FieldSel) (xof : Nat → Byte) :
    ∃ a0 a1 b, generateLayer f xof 2 = ([a0, a1], b) := by
  obtain ⟨a0, a1, h⟩ := List.length_eq_two.mp (layersFrom_length f xof 2 0)
  exact ⟨a0, a1, _, Prod.ext h rfl⟩

theorem generateLayer_three (f : FieldSel) (xof : Nat → Byte) :
    ∃ a0 a1 a2 b, generateLayer f xof 3 = ([a0, a1, a2], b) := by
  obtain ⟨a0, a1, a2, h⟩ := List.length_eq_three.mp (layersFrom_length f xof 3 0)
  exact ⟨a0, a1, a2, _, Prod.ext h rfl⟩

theorem aimEval_of_generateLayer {f : FieldSel} {xof : Nat → Byte} {mats : List (List Nat)} {b : Nat}
    (pt : List Byte) (h : generateLayer f xof (layerExponents f).length = (mats, b)) :
    aimEval f xof pt = toBytes f.bytes (gfExp f
      (accumulate b ((layerExponents f).map fun e => gfExp f (fromBytes pt) (2 ^ e - 1)) mats)
      (2 ^ finalExponent f - 1) ^^^ fromBytes pt) := by
  simp only [aimEval, h, powerMapExponent]

/-- The sum over the variant's exponents is R231's steps written out: two terms for AIM128 and AIM192, three for
AIM256 (R12). -/
theorem aimEval_evalOutput (f : FieldSel) (xof : Nat → Byte) (pt : List Byte) :
    EvalOutput f xof pt (aimEval f xof pt) := by
  cases f with
  | gf128 =>
    obtain ⟨a0, a1, b, h⟩ := generateLayer_two .gf128 xof
    exact ⟨a0, a1, b, h, by
      simp only [aimEval_of_generateLayer pt h, layerExponents, List.map, accumulate, finalExponent, FieldSel.bytes]⟩
  | gf192 =>
    obtain ⟨a0, a1, b, h⟩ := generateLayer_two .gf192 xof
    exact ⟨a0, a1, b, h, by
      simp only [aimEval_of_generateLayer pt h, layerExponents, List.map, accumulate, finalExponent, FieldSel.bytes]⟩
  | gf256 =>
    obtain ⟨a0, a1, a2, b, h⟩ := generateLayer_three .gf256 xof
    exact ⟨a0, a1, a2, b, h, by
      simp only [aimEval_of_generateLayer pt h, layerExponents, List.map, accumulate, finalExponent, FieldSel.bytes]⟩

/-! ### The command (R230) -/

/-- The 32 bytes EVAL stores: the function's output, filled up with zeros (R230). -/
def evalImage (f : FieldSel) (pt iv : List Byte) : List Byte :=
  aimEval f (xofStream iv) pt ++ List.replicate (32 - f.bytes) 0

@[simp] theorem evalImage_length (f : FieldSel) (pt iv : List Byte) : (evalImage f pt iv).length = 32 := by
  rw [evalImage, List.length_append, aimEval_length, List.length_replicate, Nat.add_sub_of_le (bytes_le f)]

theorem evalImage_take (f : FieldSel) (pt iv : List Byte) :
    (evalImage f pt iv).take f.bytes = aimEval f (xofStream iv) pt :=
  List.take_left' (aimEval_length _ _ _)

theorem evalImage_getElem?_of_le {f : FieldSel} (pt iv : List Byte) {k : Nat} (hf : f.bytes ≤ k) (hk : k < 32) :
    (evalImage f pt iv)[k]? = some 0 := by
  rw [evalImage, List.getElem?_append_right (by rwa [aimEval_length]), aimEval_length,
    List.getElem?_replicate_of_lt (by omega)]

theorem Memory.byteAt_write_inside (m : Memory) (a : Nat) {bs : List Byte} {k : Nat} (h : k < bs.length) :
    (m.write a bs).byteAt (a + k) = bs[k]? := by
  rw [Memory.byteAt_write, if_pos (by omega), Nat.add_sub_cancel_left]

section

variable {s : State} {f : FieldSel}

theorem exec_eval_of_buffers {pt iv : List Byte} (hp : s.ptlen.toNat = f.bytes) (hl : s.ivlen.toNat = f.bytes)
    (hpt : s.mem.readBytes ptBase f.bytes = some pt) (hiv : s.mem.readBytes ivBase f.bytes = some iv) :
    ∃ t, exec .eval s = .next t ∧ Succeeded s t ∧ t.mem = s.mem.write ctBase (evalImage f pt iv) :=
  exec_of_ok (by simp [bodyOf, evalBody_of_lengths hp hl, State.fetchBuffer, hpt, hiv, evalImage])

/-- EVAL answers a next state only where it has read both buffers, a length error aside (R35, R230). -/
theorem buffers_written_of_exec_eval {t : State} (hp : s.ptlen.toNat = f.bytes) (hl : s.ivlen.toNat = f.bytes)
    (h : exec .eval s = .next t) :
    ∃ pt iv, s.mem.readBytes ptBase f.bytes = some pt ∧ s.mem.readBytes ivBase f.bytes = some iv := by
  rw [exec_eq_finish, bodyOf, evalBody_of_lengths hp hl, State.fetchBuffer, State.fetchBuffer] at h
  cases hpt : s.mem.readBytes ptBase f.bytes with
  | none => simp [hpt] at h
  | some pt =>
    cases hiv : s.mem.readBytes ivBase f.bytes with
    | none => simp [hpt, hiv] at h
    | some iv => exact ⟨pt, iv, rfl, rfl⟩

end

/-- PTLEN and IVLEN are both the length of one variant, or EVAL refuses them (R12, R230). -/
theorem lengths_of_variant_or_refused (p i : BitVec 6) :
    (∃ f : FieldSel, p.toNat = f.bytes ∧ i.toNat = f.bytes) ∨
      (p.toNat ≠ 16 ∧ p.toNat ≠ 24 ∧ p.toNat ≠ 32) ∨ i ≠ p := by
  by_cases he : i = p
  · by_cases hf : ∃ f : FieldSel, p.toNat = f.bytes
    · obtain ⟨f, hf⟩ := hf
      exact .inl ⟨f, hf, he ▸ hf⟩
    · exact .inr (.inl ⟨fun h => hf ⟨.gf128, h⟩, fun h => hf ⟨.gf192, h⟩, fun h => hf ⟨.gf256, h⟩⟩)
  · exact .inr (.inr he)

/-- Settles O29: the store is the output of R231's steps with zeros above it, and nothing else changes, as in every
completion of EVAL. -/
theorem evalCompletes : Obligations.EvalCompletes := by
  intro s f pt iv hp hl hpt hiv
  obtain ⟨t, ht, hok, hmem⟩ := exec_eval_of_buffers hp hl hpt hiv
  refine ⟨t, ht, hok, ?_, aimEval_evalOutput f _ pt, fun k hf hk => ?_, (evalAndNopFrame.1 s t ht).1⟩
  · have hread := Memory.readBytes_write_inside s.mem ctBase 0 f.bytes (evalImage f pt iv)
      (by simpa using bytes_le f)
    rwa [← hmem, List.drop_zero, evalImage_take] at hread
  · rw [hmem, Memory.byteAt_write_inside _ _ (by simpa using hk), evalImage_getElem?_of_le pt iv hf hk]

/-- Settles O59: equal lengths are refused in both states, or both states read the same buffers, so that each stores the
same bytes over all of CT_BUF. -/
theorem evalDependsOnItsInputs : Obligations.EvalDependsOnItsInputs := by
  intro s s' t hp hl hbytes h
  obtain ⟨f, hfp, hfl⟩ | hbad := lengths_of_variant_or_refused s.ptlen s.ivlen
  · obtain ⟨pt, iv, hpt, hiv⟩ := buffers_written_of_exec_eval hfp hfl h
    rw [hfp] at hbytes
    have hpt' := (Memory.readBytes_congr _ _ _ _ fun k hk => (hbytes k hk).1).symm.trans hpt
    have hiv' := (Memory.readBytes_congr _ _ _ _ fun k hk => (hbytes k hk).2).symm.trans hiv
    obtain ⟨t₀, ht, ⟨hst, -⟩, hmem⟩ := exec_eval_of_buffers hfp hfl hpt hiv
    obtain rfl := Host.Outcome.next.inj (h.symm.trans ht)
    obtain ⟨t', ht', ⟨hst', -⟩, hmem'⟩ := exec_eval_of_buffers (hp ▸ hfp) (hl ▸ hfl) hpt' hiv'
    refine ⟨t', ht', by rw [hst, hst'], fun _ k hk => ?_⟩
    have hin : k < (evalImage f pt iv).length := by simpa using hk
    rw [hmem, hmem', Memory.byteAt_write_inside _ _ hin, Memory.byteAt_write_inside _ _ hin]
  · obtain ⟨t₀, ht, hst, -⟩ := invalidInputCases.2 s hbad
    obtain rfl := Host.Outcome.next.inj (h.symm.trans ht)
    obtain ⟨t', ht', hst', -⟩ := invalidInputCases.2 s' (by rwa [← hp, ← hl])
    refine ⟨t', ht', by rw [hst, hst'], by simp [hst]⟩

end Sys2Proof.Machine
end

section
/-! Issue, latency and completion: the due step, the completion report, a CMD write, and the count of steps to a
completion (R250, R251, R254, R255). -/

namespace Sys2Proof.Machine

open Sys2Proof

/-! ### The completion step (R251, R254, R255) -/

/-- Settles O7: a due step is the completion, and the completion of a decoded word is its command's meaning. -/
theorem dueStepRunsTheCommand : Obligations.DueStepRunsTheCommand := fun s i hd hi =>
  (step_of_due s ((State.completionDue_iff s).mpr hd)).trans (State.completion_of_command s i hi)

/-- An error completion of a due command is R255's list of changes and no other: its latency was 0 already. -/
theorem State.complete_of_error {s : State} (hd : Due s) {c : ErrorCode} (hc : c ≠ .ok) : s.complete c = { s with
    status := { busy := false, done := true, err := true, hz := s.status.hz, ecode := c.bits }
    errcmd := s.cmd } := by
  obtain ⟨-, -, hrem⟩ := hd
  obtain ⟨hstatus, -⟩ := failedWith_complete s hc
  rw [← hstatus, State.complete_status, State.complete, if_neg hc, hrem]

/-- Settles O11: a due step ends in `State.complete`, with code OK over new storage or with an error code over the
old. -/
theorem completionReport : Obligations.CompletionReport := by
  intro s t hd h
  rw [step_of_due s ((State.completionDue_iff s).mpr hd)] at h
  obtain ⟨_, m, -, -, rfl⟩ | ⟨c, hc, rfl⟩ := State.completion_eq_next h
  · exact ⟨rfl, rfl, rfl, ErrorCode.bits_le _, fun _ => ⟨by simp, rfl⟩, fun he => absurd rfl he⟩
  · exact ⟨rfl, rfl, rfl, c.bits_le, fun he => absurd (c.bits_eq_zero_iff.mp he) hc,
      fun _ => State.complete_of_error hd hc⟩

/-! ### The issue of a command (R250) -/

/-- No latency passes while IDLE (R51). -/
theorem State.tick_of_idle {s : State} (hb : s.status.busy = false) : s.tick = s := by
  simp [State.tick, hb]

theorem not_due_of_idle {s : State} (hb : s.status.busy = false) : ¬ Due s := fun ⟨_, hbusy, _⟩ => by
  rw [hb] at hbusy
  cases hbusy

theorem State.perform_write {s s' : State} {a : PortAddr} {n : Nat} {v : Word} (h : s.memWrite a n v = .ok s')
    (rest : List HostOp) : s.perform (.write a n v) rest = .ok { s' with host := rest } := by
  simp [State.perform, h]

/-- An idle machine's step is the write at the head of the host's list (R78, R300). -/
theorem step_of_idle_write {s s' : State} (hb : s.status.busy = false) {a : PortAddr} {n : Nat} {v : Word}
    {rest : List HostOp} (hh : s.host = .write a n v :: rest) (h : s.memWrite a n v = .ok s') :
    step s = .next { s' with host := rest } := by
  rw [step_of_not_due s (by rw [← Bool.not_eq_true, State.completionDue_iff]; exact not_due_of_idle hb),
    State.tick_of_idle hb]
  exact (State.hostTurn_eq_next_iff _ _).mpr (.inr ⟨_, rest, hh, State.perform_write h rest⟩)

theorem State.writeControl_cmd_idle {s : State} (hb : s.status.busy = false) (w : Word) :
    s.writeControl 0x00 w = s.issueFresh w := by
  simp [State.writeControl, hb]

theorem State.writeControl_cmd_busy {s : State} (hb : s.status.busy = true) (w : Word) :
    s.writeControl 0x00 w = s.hazard := by
  simp [State.writeControl, hb]

/-- Settles O13: the write is `State.issueFresh` while IDLE and `State.hazard` while BUSY. -/
theorem cmdWriteIssues : Obligations.CmdWriteIssues := by
  refine ⟨fun s w rest hr hb hh => ?_, fun s s' w hr hb h => ?_⟩
  · have hwrite : s.memWrite 0x0000 4 w = .ok (s.issueFresh w) := by
      rw [← State.writeControl_cmd_idle hb]
      exact State.memWrite_control hr (by decide) (by decide) w
    refine ⟨_, step_of_idle_write hb hh hwrite, rfl, rfl, ?_, rfl, rfl, rfl, rfl, rfl, rfl, rfl⟩
    exact Bool.and_false _
  · have hwrite : s.memWrite 0x0000 4 w = .ok s.hazard := by
      rw [← State.writeControl_cmd_busy hb]
      exact State.memWrite_control hr (by decide) (by decide) w
    rw [← Except.ok.inj (hwrite.symm.trans h)]
    exact ⟨rfl, rfl, rfl⟩

/-! ### The latency, counted in steps (R51, R251) -/

/-- A command is in progress with `n` cycles to go, and RST is not and will not be asserted. -/
abbrev State.InProgress (s : State) (n : Nat) : Prop :=
  s.rst = false ∧ s.status.busy = true ∧ HostOp.assertReset ∉ s.host ∧ s.remaining = n

section
variable {s : State} (hb : s.status.busy = true)
include hb

/-- While BUSY a CMD write is no issue, and only an issue sets the latency (R251, R301). -/
theorem State.writeControl_remaining (a : Nat) (v : Word) : (s.writeControl a v).remaining = s.remaining := by
  obtain h | h | ⟨hidle, -⟩ | h | ⟨ie, f, il, pl, h⟩ := s.writeControl_cases a v
  case inr.inr.inl =>
    rw [hb] at hidle
    cases hidle
  all_goals exact (congrArg State.remaining h :)

theorem State.memWrite_rst_remaining {s' : State} {a : PortAddr} {n : Nat} {v : Word}
    (h : s.memWrite a n v = .ok s') : s'.rst = s.rst ∧ s'.remaining = s.remaining := by
  obtain rfl | ⟨-, -, rfl⟩ | ⟨-, -, rfl⟩ | ⟨-, -, -, -, rfl⟩ := State.memWrite_eq_ok s s' a n v h
  · exact ⟨rfl, rfl⟩
  · exact ⟨rfl, rfl⟩
  · exact ⟨s.writeControl_rst _ _, State.writeControl_remaining hb _ _⟩
  · exact ⟨rfl, rfl⟩

end

theorem State.memRead_rst_remaining {s s' : State} {a : PortAddr} {n : Nat} {v : Word}
    (h : s.memRead a n = .ok (v, s')) : s'.rst = s.rst ∧ s'.remaining = s.remaining := by
  obtain rfl | ⟨rfl, -⟩ := State.memRead_eq_ok s s' a n v h <;> exact ⟨rfl, rfl⟩

/-- An access leaves the host's list without itself, or as it was where it waits on (R80, R113). -/
theorem State.perform_host {s t : State} {op : HostOp} {rest : List HostOp} (h : s.perform op rest = .ok t) :
    t.host = rest ∨ t.host = op :: rest := by
  obtain ⟨a, n, v, r, -, -, rfl⟩ | ⟨a, n, v, r, -, -, rfl⟩ | ⟨v, r, rfl, -, rfl⟩ | ⟨rfl, rfl⟩ | ⟨-, rfl⟩ |
    ⟨-, rfl⟩ | ⟨-, rfl⟩ := State.perform_eq_ok s t op rest h
  · exact .inl rfl
  · exact .inl rfl
  · cases v.getLsbD 0 with
    | true => exact .inr rfl
    | false => exact .inl rfl
  · cases s.irq with
    | true => exact .inl rfl
    | false => exact .inr rfl
  · exact .inl rfl
  · exact .inl rfl
  · exact .inl rfl

/-- No access but the assertion of RST touches RST or the latency of a busy engine. -/
theorem State.perform_rst_remaining {s t : State} {op : HostOp} {rest : List HostOp} (hr : s.rst = false)
    (hb : s.status.busy = true) (hop : op ≠ .assertReset) (h : s.perform op rest = .ok t) :
    t.rst = s.rst ∧ t.remaining = s.remaining := by
  obtain ⟨a, n, v, r, -, hm, rfl⟩ | ⟨a, n, v, r, -, hm, rfl⟩ | ⟨v, r, -, hm, rfl⟩ | ⟨-, rfl⟩ | ⟨-, rfl⟩ |
    ⟨hassert, -⟩ | ⟨-, rfl⟩ := State.perform_eq_ok s t op rest h
  · exact (State.memRead_rst_remaining hm :)
  · exact (State.memWrite_rst_remaining hb hm :)
  · exact (State.memRead_rst_remaining hm :)
  · exact ⟨rfl, rfl⟩
  · exact ⟨rfl, rfl⟩
  · exact absurd hassert hop
  · simp [State.releaseRst, hr]

theorem State.InProgress.perform {s t : State} {n : Nat} {op : HostOp} {rest : List HostOp} (hs : s.InProgress n)
    (hh : s.host = op :: rest) (h : s.perform op rest = .ok t) : t.InProgress n := by
  obtain ⟨hr, hb, hassert, hn⟩ := hs
  have hop : op ≠ .assertReset := fun he => hassert (by simp [hh, he])
  obtain ⟨hrst, hrem⟩ := State.perform_rst_remaining hr hb hop h
  obtain ⟨-, -, -, -, -, hbusy⟩ := State.perform_holdsCommand hb hr h
  refine ⟨hrst.trans hr, hbusy, ?_, hrem.trans hn⟩
  obtain ht | ht := State.perform_host h <;> rw [ht]
  · exact fun hmem => hassert (hh ▸ List.mem_cons_of_mem _ hmem)
  · exact hh ▸ hassert

theorem State.InProgress.tick {s : State} {n : Nat} (hs : s.InProgress (n + 1)) : s.tick.InProgress n := by
  obtain ⟨hr, hb, hassert, hn⟩ := hs
  have htick : s.tick = { s with remaining := n } := by simp [State.tick, hr, hb, hn]
  rw [htick]
  exact ⟨hr, hb, hassert, rfl⟩

/-- One step brings the completion one cycle nearer (R251). -/
theorem State.InProgress.step {s t : State} {n : Nat} (hs : s.InProgress (n + 1)) (h : step s = .next t) :
    t.InProgress n := by
  have hd : ¬ Due s := fun ⟨_, _, h0⟩ => by
    obtain ⟨-, -, -, hn⟩ := hs
    omega
  obtain rfl | ⟨op, rest, hh, hp⟩ := step_of_not_due_eq_next hd h
  · exact hs.tick
  · obtain ⟨k, -, htick⟩ := s.tick_eq
    exact hs.tick.perform (by rw [htick]; exact hh) hp

/-- A run of `k + 1` steps that stops nowhere is a step and a run of `k`. -/
theorem run_succ_eq_next {M : Host.Core} {k : Nat} {s t : M.State} (h : M.run (k + 1) s = .next t) :
    ∃ s', M.step s = .next s' ∧ M.run k s' = .next t := by
  unfold Host.Core.run at h
  split at h
  · next s' hs => exact ⟨s', hs, h⟩
  · cases h
  · cases h

/-- Through all of its latency a command keeps its word and its storage, and then it is due. -/
theorem State.InProgress.run {t : State} (n : Nat) : ∀ {s : State}, s.InProgress n →
    Host.Core.run core n s = .next t → Due t ∧ t.cmd = s.cmd ∧ t.mem = s.mem := by
  induction n with
  | zero =>
    intro s ⟨hr, hb, _, hn⟩ h
    obtain rfl : s = t := Host.Outcome.next.inj h
    exact ⟨⟨hr, hb, hn⟩, rfl, rfl⟩
  | succ n ih =>
    intro s hs h
    obtain ⟨s', hstep, hrun⟩ := run_succ_eq_next h
    obtain ⟨hdue, hcmd, hmem⟩ := ih (hs.step hstep) hrun
    obtain ⟨hr, hb, hassert, hn⟩ := hs
    obtain ⟨hmem', hcmd', -⟩ := operandsFixedWhileBusy s s' hr hb (by omega)
      (fun rest hh => hassert (hh ▸ List.mem_cons_self)) hstep
    exact ⟨hdue, hcmd.trans hcmd', hmem.trans hmem'⟩

/-- Settles O15: by induction on the remaining latency, each step being one cycle of it. -/
theorem completionComes : Obligations.CompletionComes := fun _ _ hr hb hassert h =>
  State.InProgress.run _ ⟨hr, hb, hassert, rfl⟩ h

end Sys2Proof.Machine
end

section
/-! The host's turn, the edges of RST, and the hazards of a busy engine (R290, R291, R300 to R303). -/

namespace Sys2Proof.Machine

open Sys2Proof

/-! ### The host's turn (R80, R113, R300) -/

/-- The passing of a cycle touches the remaining latency alone (R51). -/
theorem State.cyclePassed_eq (s : State) : ∃ n, s.cyclePassed = { s with remaining := n } := by
  obtain ⟨n, -, htick⟩ := s.tick_eq
  exact ⟨n, by rw [← htick, State.tick_eq_cyclePassed]⟩

/-- No latency passes while RST is asserted (R290). -/
theorem State.cyclePassed_of_rst {s : State} (hr : s.rst = true) : s.cyclePassed = s := by
  simp [State.cyclePassed, hr]

theorem not_due_of_rst {s : State} (hr : s.rst = true) : ¬ Due s := fun ⟨hrst, _, _⟩ => by
  rw [hr] at hrst
  cases hrst

section
variable {s : State} (hd : ¬ Due s)
include hd

theorem step_eq_hostTurn : step s = s.cyclePassed.hostTurn := by
  rw [← State.completionDue_iff, Bool.not_eq_true] at hd
  rw [step_of_not_due s hd, State.tick_eq_cyclePassed]

variable {op : HostOp} {rest : List HostOp} (hh : s.host = op :: rest)
include hh

/-- The access at the head of the host's list is what a step performs that is no completion. -/
theorem step_of_perform {t : State} (hp : s.cyclePassed.perform op rest = .ok t) : step s = .next t := by
  obtain ⟨n, hcycle⟩ := s.cyclePassed_eq
  rw [step_eq_hostTurn hd]
  exact (State.hostTurn_eq_next_iff _ _).mpr (.inr ⟨op, rest, by rw [hcycle]; exact hh, hp⟩)

theorem step_of_perform_error {r : Fault} (hp : s.cyclePassed.perform op rest = .error r) :
    step s = .fault r := by
  obtain ⟨n, hcycle⟩ := s.cyclePassed_eq
  have hhost : s.cyclePassed.host = op :: rest := by rw [hcycle]; exact hh
  rw [step_eq_hostTurn hd, State.hostTurn, hhost]
  simp only [hp]

end

section
variable {s s' : State} {a : PortAddr} {n : Nat} {v : Word}

/-- A read changes neither STATUS nor what the host has observed before (R77, R81). -/
theorem State.memRead_status_reads (h : s.memRead a n = .ok (v, s')) :
    s'.status = s.status ∧ s'.reads = s.reads := by
  obtain rfl | ⟨rfl, -⟩ := State.memRead_eq_ok s s' a n v h <;> exact ⟨rfl, rfl⟩

theorem State.perform_read (h : s.memRead a n = .ok (v, s')) (rest : List HostOp) :
    s.perform (.read a n) rest = .ok { s' with reads := s.reads ++ [v], host := rest } := by
  rw [← (State.memRead_status_reads h).2]
  simp [State.perform, h, State.noted]

theorem State.perform_read_error {r : Fault} (h : s.memRead a n = .error r) (rest : List HostOp) :
    s.perform (.read a n) rest = .error r := by
  simp [State.perform, h]

theorem State.perform_write_error {r : Fault} (h : s.memWrite a n v = .error r) (rest : List HostOp) :
    s.perform (.write a n v) rest = .error r := by
  simp [State.perform, h]

theorem State.perform_wait (h : s.memRead 0x0004 4 = .ok (v, s')) (rest : List HostOp) :
    s.perform .wait rest = .ok { s' with
      reads := s.reads ++ [v], host := if v.getLsbD 0 then .wait :: rest else rest } := by
  rw [← (State.memRead_status_reads h).2]
  simp only [State.perform, h]
  rfl

end

/-- Out of RST `wait` polls STATUS and goes by BUSY (R42, R113). -/
theorem State.perform_wait_of_not_rst {s : State} (hr : s.rst = false) (rest : List HostOp) :
    s.perform .wait rest = .ok { s with
      reads := s.reads ++ [s.status.word], host := if s.status.busy then .wait :: rest else rest } := by
  obtain ⟨hbusy, -⟩ := s.status.word_flags
  have hpoll : s.memRead 0x0004 4 = .ok (s.status.word, s) := State.memRead_control hr (by decide) (by decide)
  rw [State.perform_wait hpoll, hbusy]

/-- Settles O8: the host's turn by the entry at the head of its list. -/
theorem otherStepIsTheHostTurn : Obligations.OtherStepIsTheHostTurn := by
  intro s hd
  obtain ⟨k, hcycle⟩ := s.cyclePassed_eq
  have hturn := step_eq_hostTurn hd
  have hstep := @step_of_perform s hd
  have hfault := @step_of_perform_error s hd
  rw [hcycle] at hturn hstep hfault ⊢
  refine ⟨hturn, fun hh => ?_, fun rest hh => hstep hh rfl,
    fun a n rest v s' hh hm => hstep hh (State.perform_read hm rest),
    fun a n rest r hh hm => hfault hh (State.perform_read_error hm rest),
    fun a n w rest s' hh hm => hstep hh (State.perform_write hm rest),
    fun a n w rest r hh hm => hfault hh (State.perform_write_error hm rest),
    fun rest v s' hh hm => ?_, fun rest hh hr => ?_, fun rest hh => ?_⟩
  · exact hturn.trans ((State.hostTurn_eq_next_iff _ _).mpr (.inl ⟨hh, rfl⟩))
  · rw [hh]
    exact hstep hh (State.perform_wait hm rest)
  · rw [hh]
    exact hstep hh (State.perform_wait_of_not_rst (s := { s with remaining := k }) hr rest)
  · rw [hh]
    exact hstep hh rfl

/-! ### RST (R52, R290, R291) -/

/-- The deassertion leaves the reset state, but for the host's lists and the count of draws. -/
theorem State.releaseRst_of_rst {s : State} (hr : s.rst = true) :
    s.releaseRst = { State.reset with host := s.host, reads := s.reads, fresh := s.fresh } := if_pos hr

/-- Settles O18: the deassertion at the head of the host's list is performed, and leaves the reset values. -/
theorem rstReleaseResets : Obligations.RstReleaseResets := by
  intro s rest hr hh
  have hperform : s.cyclePassed.perform .releaseReset rest =
      .ok { State.reset with host := rest, reads := s.reads, fresh := s.fresh } := by
    rw [State.cyclePassed_of_rst hr, State.perform, State.releaseRst_of_rst hr]
  exact ⟨_, step_of_perform (not_due_of_rst hr) hh hperform, rfl, rfl, rfl, rfl, rfl, rfl, rfl, rfl,
    fun _ => rfl, rfl, rfl, rfl, rfl⟩

/-- `t` has RST asserted, and the storage, the control registers and the latency of `s` (log 7). -/
def HeldInReset (s t : State) : Prop :=
  t.mem = s.mem ∧ t.cmd = s.cmd ∧ t.status = s.status ∧ t.ie = s.ie ∧ t.fsel = s.fsel ∧ t.ivlen = s.ivlen ∧
    t.ptlen = s.ptlen ∧ t.errcmd = s.errcmd ∧ t.remaining = s.remaining ∧ t.rst = true

section
variable {s : State} (hr : s.rst = true)
include hr

theorem HeldInReset.refl : HeldInReset s s := ⟨rfl, rfl, rfl, rfl, rfl, rfl, rfl, rfl, rfl, hr⟩

/-- While RST is asserted every read within the contract is a draw (R290). -/
theorem State.memRead_of_rst {a : PortAddr} {n : Nat} (hc : InContract a.toNat n) :
    s.memRead a n = .ok (s.drawn n, s.afterDraw) := by
  simp [State.memRead, (accessOk_iff _ _).mpr hc, hr]

/-- While RST is asserted every write within the contract is discarded (R290). -/
theorem State.memWrite_of_rst {a : PortAddr} {n : Nat} (hc : InContract a.toNat n) (v : Word) :
    s.memWrite a n v = .ok s := by
  rw [State.memWrite_of_inContract hc, if_pos hr]

theorem State.memRead_heldInReset {s' : State} {a : PortAddr} {n : Nat} {v : Word}
    (h : s.memRead a n = .ok (v, s')) : HeldInReset s s' := by
  obtain rfl | ⟨rfl, -⟩ := State.memRead_eq_ok s s' a n v h <;> exact HeldInReset.refl hr

theorem State.memWrite_heldInReset {s' : State} {a : PortAddr} {n : Nat} {v : Word}
    (h : s.memWrite a n v = .ok s') : HeldInReset s s' := by
  by_cases hc : InContract a.toNat n
  · rw [State.memWrite_of_rst hr hc] at h
    exact Except.ok.inj h ▸ HeldInReset.refl hr
  · rw [State.memWrite_of_not_inContract hc] at h
    cases h

/-- Nothing the host does but the deassertion ends what RST holds (R290). -/
theorem State.perform_heldInReset {t : State} {op : HostOp} {rest : List HostOp} (hop : op ≠ .releaseReset)
    (h : s.perform op rest = .ok t) : HeldInReset s t := by
  obtain ⟨a, n, v, r, -, hm, rfl⟩ | ⟨a, n, v, r, -, hm, rfl⟩ | ⟨v, r, -, hm, rfl⟩ | ⟨-, rfl⟩ | ⟨-, rfl⟩ |
    ⟨-, rfl⟩ | ⟨hrelease, -⟩ := State.perform_eq_ok s t op rest h
  · exact (State.memRead_heldInReset hr hm :)
  · exact (State.memWrite_heldInReset hr hm :)
  · exact (State.memRead_heldInReset hr hm :)
  · exact HeldInReset.refl hr
  · exact HeldInReset.refl hr
  · exact ⟨rfl, rfl, rfl, rfl, rfl, rfl, rfl, rfl, rfl, rfl⟩
  · exact absurd hrelease hop

end

/-- Settles O19: the assertion is one entry of the host's list, and with RST asserted every other entry holds the
registers and storage. -/
theorem rstBlocksEverything : Obligations.RstBlocksEverything := by
  refine ⟨fun s rest hd hh => ?_,
    fun s a n v hr hc => ⟨State.memWrite_of_rst hr hc v, State.memRead_of_rst hr hc⟩, fun s t hr hno h => ?_⟩
  · obtain ⟨k, hcycle⟩ := s.cyclePassed_eq
    have hperform : s.cyclePassed.perform .assertReset rest =
        .ok { s with remaining := k, rst := true, host := rest } := by
      rw [hcycle]
      rfl
    exact ⟨_, step_of_perform hd hh hperform, rfl, rfl, rfl, rfl, rfl, rfl, rfl, rfl, rfl, rfl, rfl⟩
  · have htick : s.tick = s := by rw [State.tick_eq_cyclePassed, State.cyclePassed_of_rst hr]
    obtain ht | ⟨op, rest, hh, hp⟩ := step_of_not_due_eq_next (not_due_of_rst hr) h
    · rw [ht, htick]
      exact HeldInReset.refl hr
    · rw [htick] at hp
      exact State.perform_heldInReset hr (fun hop => hno rest (hop ▸ hh)) hp

/-! ### The write hazard (R301) -/

theorem regionOf_reserved {a : Nat} (h : (0x0160 ≤ a ∧ a < 0x0200) ∨ (0x0400 ≤ a ∧ a < 0x8000)) :
    regionOf a = .reserved := by
  unfold regionOf
  obtain ⟨hlo, hhi⟩ | ⟨hlo, hhi⟩ := h
  · iterate 3 rw [if_neg (by omega)]
    exact if_pos hhi
  · iterate 5 rw [if_neg (by omega)]
    exact if_pos hhi

/-- The windows that a host write of storage goes to are protected ones (R73, R301). -/
theorem protected_of_regionOf {a : Nat} (hlt : a < 0x10000)
    (h : regionOf a = .inputBuffer ∨ regionOf a = .elements ∨ regionOf a = .matrices) : Protected a := by
  unfold regionOf at h
  split_ifs at h <;> simp only [or_self] at h <;> unfold Protected <;> omega

section
variable (s : State) {a : Nat} (n : Nat) (v : Word)

theorem State.afterWrite_control (h : a < 0x0100) : s.afterWrite a n v = s.writeControl a v := by
  simp [State.afterWrite, regionOf, h]

/-- A write to ERRCMD, CT_BUF or a reserved address is ignored (R47, R48, R73). -/
theorem State.afterWrite_ignored (h : a = 0x18 ∨ (0x1C ≤ a ∧ a < 0x0100) ∨ (0x0140 ≤ a ∧ a < 0x0200) ∨
    (0x0400 ≤ a ∧ a < 0x8000)) : s.afterWrite a n v = s := by
  by_cases hc : a < 0x0100
  · rw [State.afterWrite_control s n v hc, State.writeControl_ignored s (by omega)]
  · have hreg : regionOf a = .reserved ∨ regionOf a = .ctBuffer := by
      unfold regionOf
      split_ifs <;> simp <;> omega
    obtain hreg | hreg := hreg <;> rw [State.afterWrite, hreg]

variable {s}

/-- While BUSY a write to a protected location is a write hazard (R301). -/
theorem State.afterWrite_protected (hb : s.status.busy = true) (h : Protected a) : s.afterWrite a n v = s.hazard := by
  obtain rfl | rfl | rfl | rfl | hw := h
  case inr.inr.inr.inr =>
    obtain hreg | hreg | hreg := regionOf_operand (hw.imp_right (Or.imp_right And.left)) <;>
      simp [State.afterWrite, hreg, hb]
  all_goals exact if_pos hb

end

/-- Settles O42: what a write within the contract leaves, by its address. -/
theorem writeHazard : Obligations.WriteHazard := by
  intro s a n v hr hc
  have hwrite : s.memWrite a n v = .ok (s.afterWrite a.toNat n v) := by
    rw [State.memWrite_of_inContract hc, hr]
    rfl
  rw [hwrite]
  refine ⟨fun hb hp => congrArg Except.ok (State.afterWrite_protected n v hb hp), fun ha => ?_, fun ha => ?_,
    fun ha => congrArg Except.ok (State.afterWrite_ignored s n v ha)⟩
  · rw [ha]
    rfl
  · rw [ha]
    rfl

/-! ### The read hazard (R302) -/

section
variable {s : State} (hr : s.rst = false) {a : PortAddr} {n : Nat} (hc : InContract a.toNat n)
include hr hc

/-- While BUSY a read of storage is a draw (R302). -/
theorem State.memRead_storage_busy (hb : s.status.busy = true)
    (hw : (0x0100 ≤ a.toNat ∧ a.toNat < 0x0160) ∨ (0x0200 ≤ a.toNat ∧ a.toNat < 0x0400) ∨ 0x8000 ≤ a.toNat) :
    s.memRead a n = .ok (s.drawn n, s.afterDraw) := by
  obtain ⟨hcontrol, hreserved⟩ := regionOf_storage hw
  unfold State.memRead
  rw [(accessOk_iff _ _).mpr hc, hr, hb]
  cases h : regionOf a.toNat with
  | control => exact absurd h hcontrol
  | reserved => exact absurd h hreserved
  | inputBuffer | ctBuffer | elements | matrices => rfl

/-- An access within the contract to the control region is one of 32 bits, and reads a register (R71). -/
theorem State.memRead_register {k : Nat} (hk : k < 0x0100) (ha : a.toNat = k) :
    s.memRead a n = .ok (s.readControl k, s) := by
  obtain ⟨-, hal, hword⟩ := hc
  obtain rfl := hword (by omega)
  rw [← ha]
  exact State.memRead_control hr (by omega) hal

/-- A reserved offset or address reads 0 (R48, R73). -/
theorem State.memRead_reserved (h : (0x1C ≤ a.toNat ∧ a.toNat < 0x0100) ∨ (0x0160 ≤ a.toNat ∧ a.toNat < 0x0200) ∨
    (0x0400 ≤ a.toNat ∧ a.toNat < 0x8000)) : s.memRead a n = .ok (0, s) := by
  obtain ⟨hlo, hhi⟩ | hwindow := h
  · rw [State.memRead_register hr hc hhi rfl, State.readControl_reserved s hlo]
  · simp [State.memRead, (accessOk_iff _ _).mpr hc, hr, regionOf_reserved hwindow]

end

theorem State.readControl_ctrl (s : State) : s.readControl 0x08 = if s.ie then 1 else 0 := by
  cases hie : s.ie <;> simp [State.readControl, hie]

/-- Settles O43: a draw of storage while BUSY, a register or 0 elsewhere. -/
theorem readHazard : Obligations.ReadHazard := by
  intro s a n hr hc
  refine ⟨State.memRead_storage_busy hr hc, State.memRead_register hr hc (by decide),
    State.memRead_register hr hc (by decide), ?_, State.memRead_register hr hc (by decide), ?_, ?_,
    State.memRead_register hr hc (by decide), State.memRead_reserved hr hc⟩
  · rw [← State.readControl_ctrl]
    exact State.memRead_register hr hc (by decide)
  · rw [BitVec.ofNat_toNat]
    exact State.memRead_register hr hc (by decide)
  · rw [BitVec.ofNat_toNat]
    exact State.memRead_register hr hc (by decide)

/-! ### HZ under the host's obligations (R303) -/

/-- Of the control registers, those whose write can set HZ are the protected ones, while BUSY (R301). -/
theorem State.writeControl_hz {s : State} {a : Nat} {v : Word} (h : (s.writeControl a v).status.hz = true) :
    s.status.hz = true ∨ (s.status.busy = true ∧ Protected a) := by
  unfold State.writeControl at h
  split_ifs at h with h00 hb h04 h08 h0C hb h10 hb h14 hb
  · exact .inr ⟨hb, .inl h00⟩
  · exact .inl h
  · rw [Status.clearOnes_hz, Bool.and_eq_true] at h
    exact .inl h.1
  · exact .inl h
  · exact .inr ⟨hb, .inr (.inl h0C)⟩
  · exact .inl h
  · exact .inr ⟨hb, .inr (.inr (.inl h10))⟩
  · exact .inl h
  · exact .inr ⟨hb, .inr (.inr (.inr (.inl h14)))⟩
  · exact .inl h
  · exact .inl h

theorem State.afterWrite_hz {s : State} {a n : Nat} {v : Word} (hlt : a < 0x10000)
    (h : (s.afterWrite a n v).status.hz = true) : s.status.hz = true ∨ (s.status.busy = true ∧ Protected a) := by
  have hwindow := protected_of_regionOf hlt
  unfold State.afterWrite at h
  cases hreg : regionOf a with
  | control =>
    rw [hreg] at h
    exact State.writeControl_hz h
  | reserved | ctBuffer =>
    rw [hreg] at h
    exact .inl h
  | inputBuffer | elements | matrices =>
    rw [hreg] at h
    cases hb : s.status.busy with
    | true => exact .inr ⟨rfl, hwindow (by simp [hreg])⟩
    | false => exact .inl (by simpa [hb] using h)

/-- A host write sets HZ only while BUSY and only at a protected location (R301). -/
theorem State.memWrite_hz {s s' : State} {a : PortAddr} {n : Nat} {v : Word} (h : s.memWrite a n v = .ok s')
    (hz : s'.status.hz = true) : s.status.hz = true ∨ (s.status.busy = true ∧ Protected a.toNat) := by
  by_cases hc : InContract a.toNat n
  · rw [State.memWrite_of_inContract hc] at h
    obtain rfl := Except.ok.inj h
    split at hz
    · exact .inl hz
    · exact State.afterWrite_hz a.isLt hz
  · rw [State.memWrite_of_not_inContract hc] at h
    cases h

/-- The host's turn sets HZ only by a write to a protected location while BUSY (R301). -/
theorem State.perform_hz {s t : State} {op : HostOp} {rest : List HostOp} (h : s.perform op rest = .ok t)
    (hz : t.status.hz = true) : s.status.hz = true ∨
      (s.status.busy = true ∧ ∃ a n v, op = .write a n v ∧ Protected a.toNat) := by
  obtain ⟨a, n, v, r, -, hm, rfl⟩ | ⟨a, n, v, r, hop, hm, rfl⟩ | ⟨v, r, -, hm, rfl⟩ | ⟨-, rfl⟩ | ⟨-, rfl⟩ |
    ⟨-, rfl⟩ | ⟨-, rfl⟩ := State.perform_eq_ok s t op rest h
  · exact .inl ((State.memRead_status_reads hm).1 ▸ hz)
  · exact (State.memWrite_hz hm hz).imp_right fun ⟨hb, hp⟩ => ⟨hb, a, n, v, hop, hp⟩
  · exact .inl ((State.memRead_status_reads hm).1 ▸ hz)
  · exact .inl hz
  · exact .inl hz
  · exact .inl hz
  · cases hr : s.rst with
    | true => simp [State.releaseRst, hr, State.reset, Status.reset] at hz
    | false => exact .inl (by simpa [State.releaseRst, hr] using hz)

/-- Settles O48: a completion keeps HZ, and the host's turn sets it only by the write the premise excludes. -/
theorem noHazardUnderObligations : Obligations.NoHazardUnderObligations := by
  intro s t hz hobliged h
  by_cases hd : Due s
  · obtain ⟨m, c, rfl⟩ := step_of_due_eq_next hd h
    exact hz
  · obtain ⟨n, -, htick⟩ := s.tick_eq
    obtain ht | ⟨op, rest, hh, hp⟩ := step_of_not_due_eq_next hd h
    · rw [ht, htick]
      exact hz
    · rw [htick] at hp
      rw [← Bool.not_eq_true] at hz ⊢
      intro hzt
      obtain hzs | ⟨hb, a, k, v, rfl, hprot⟩ := State.perform_hz hp hzt
      · exact hz hzs
      · exact hobliged hb a k v rest hh hprot

end Sys2Proof.Machine
end
